-- ==== Sys2Proof/Word.lean ====
section
/-! DEFINITION. The words of the block and their plainest arithmetic (00_scope R7, R13 to R16). -/

namespace Sys2Proof

/-- A value of `HASH_WIDTH = 64` bits (00_scope R7); also one operand field of a command word (30_encoding R60). -/
abbrev Word := BitVec 64

/-- One byte: an opcode, a status code or one datum of hash input (00_scope R13). -/
abbrev Byte := BitVec 8

/-- A command word, `OP ## A ## B` (30_encoding R60). -/
abbrev CommandWord := BitVec 136

/-- A response word, `STATUS ## VALUE` (30_encoding R61). -/
abbrev ResponseWord := BitVec 72

end Sys2Proof
end

