-- ==== Sys2Proof/Syntax.lean ====
section
/-! DEFINITION. The commands of command set 1.0: one constructor per row of spec/opcode_table.json. -/

namespace Sys2Proof

/-- A command with its operands as 30_encoding R63 and R70 read them. Ignored bits are not part of it (R64), and an
unassigned opcode is no command (R65). -/
inductive Instr where
  /-- `HINIT`: start a new hash (40_hash R81). -/
  | hinit
  /-- `HBYTE byte`: absorb one byte (40_hash R82). -/
  | hbyte (byte : Byte)
  /-- `HGET`: read the hash (40_hash R83). -/
  | hget
  /-- `NEW capacity_n, rounds_k`: construct the filter; both operands are signed (42_filter R101). -/
  | new (capacityN roundsK : Int)
  /-- `ADD h` (42_filter R102). -/
  | add (h : Word)
  /-- `PRESENT h` (42_filter R103). -/
  | present (h : Word)
  /-- `COUNT` (42_filter R104). -/
  | count
  /-- `FREE`: release the filter (42_filter R105). -/
  | free
  deriving DecidableEq, Repr

end Sys2Proof
end

