-- ==== Sys2Proof/WellFormed.lean ====
section
/-! DEFINITION. Which instruction terms a command word can express. -/

namespace Sys2Proof

/-- `-2^63 <= v <= 2^63 - 1`: what a 64-bit two's-complement field can hold (00_scope R9; 30_encoding R68). -/
def inSigned64 (v : Int) : Bool := decide (-(2 ^ 63) ≤ v) && decide (v < 2 ^ 63)

/-- Both operands of `NEW` fit their fields; every other operand fits by its type. -/
def Instr.wellFormed : Instr → Bool
  | .hinit => true
  | .hbyte _ => true
  | .hget => true
  | .new n k => inSigned64 n && inSigned64 k
  | .add _ => true
  | .present _ => true
  | .count => true
  | .free => true

/-- The instruction can be written as a command word. -/
abbrev Instr.WellFormed (i : Instr) : Prop := i.wellFormed = true

end Sys2Proof
end

