-- ==== Sys2Proof/Decode.lean ====
section
/-! DEFINITION. Command words: the fields, the opcode map, the decoder (total, rejecting by name) and the encoder
(30_encoding R60, R62 to R65, R67, R70). -/

namespace Sys2Proof

/-- The eight assigned opcodes (30_encoding R62). -/
inductive Opcode where
  | hinit | hbyte | hget | new | add | present | count | free
  deriving DecidableEq, Repr

/-- Why the decoder gives no command. -/
inductive DecodeError where
  /-- `OP` is one of the 248 unassigned values (30_encoding R65). The block answers `IllegalCommand`. -/
  | illegalOpcode (op : Byte)
  deriving DecidableEq, Repr

/-- The numeric value of each opcode (30_encoding R62). -/
def Opcode.code : Opcode → Byte
  | .hinit => 0x01#8
  | .hbyte => 0x02#8
  | .hget => 0x03#8
  | .new => 0x10#8
  | .add => 0x11#8
  | .present => 0x12#8
  | .count => 0x13#8
  | .free => 0x14#8

/-- The opcode map read from the value (30_encoding R62); `none` for every unassigned value. -/
def Opcode.ofCode (c : Byte) : Option Opcode :=
  if c = 0x01#8 then some .hinit
  else if c = 0x02#8 then some .hbyte
  else if c = 0x03#8 then some .hget
  else if c = 0x10#8 then some .new
  else if c = 0x11#8 then some .add
  else if c = 0x12#8 then some .present
  else if c = 0x13#8 then some .count
  else if c = 0x14#8 then some .free
  else none

/-- `OP = w[135:128]` (30_encoding R60). -/
def opField (w : CommandWord) : Byte := w.extractLsb' 128 8

/-- `A = w[127:64]` (30_encoding R60). -/
def aField (w : CommandWord) : Word := w.extractLsb' 64 64

/-- `B = w[63:0]` (30_encoding R60). -/
def bField (w : CommandWord) : Word := w.extractLsb' 0 64

/-- The command word `OP ## A ## B` (30_encoding R60). -/
def packCommand (op : Byte) (a b : Word) : CommandWord := op ++ a ++ b

/-- `sint_64(v)`: `v` read as two's complement (00_scope R14). -/
def sint64 (v : Word) : Int :=
  if v.toNat < 2 ^ 63 then (v.toNat : Int) else (v.toNat : Int) - 2 ^ 64

/-- The 64-bit pattern whose `sint64` is `v`, for `v` in range (30_encoding R63). -/
def ofSint64 (v : Int) : Word := BitVec.ofNat 64 (v % 2 ^ 64).toNat

/-- `byte = A[7:0]` (30_encoding R63). -/
def byteOperand (a : Word) : Byte := a.extractLsb' 0 8

/-- The command of an assigned opcode with its operands read from the fields `A` and `B` (30_encoding R63); bits it does
not use are ignored (R64). -/
def instrOf (o : Opcode) (a b : Word) : Instr :=
  match o with
  | .hinit => .hinit
  | .hbyte => .hbyte (byteOperand a)
  | .hget => .hget
  | .new => .new (sint64 a) (sint64 b)
  | .add => .add a
  | .present => .present a
  | .count => .count
  | .free => .free

/-- The decoder (30_encoding R70): total; it looks at `OP` only to choose the command. -/
def decode (w : CommandWord) : Except DecodeError Instr :=
  match Opcode.ofCode (opField w) with
  | none => .error (.illegalOpcode (opField w))
  | some o => .ok (instrOf o (aField w) (bField w))

/-- The opcode of an instruction (30_encoding R62). -/
def Instr.opcode : Instr → Opcode
  | .hinit => .hinit
  | .hbyte _ => .hbyte
  | .hget => .hget
  | .new _ _ => .new
  | .add _ => .add
  | .present _ => .present
  | .count => .count
  | .free => .free

/-- What the encoder writes in field `A`; zeros where the command does not use it (30_encoding R64). -/
def Instr.operandA : Instr → Word
  | .hinit => 0#64
  | .hbyte byte => byte.setWidth 64
  | .hget => 0#64
  | .new n _ => ofSint64 n
  | .add h => h
  | .present h => h
  | .count => 0#64
  | .free => 0#64

/-- What the encoder writes in field `B`; zeros where the command does not use it (30_encoding R64). -/
def Instr.operandB : Instr → Word
  | .hinit => 0#64
  | .hbyte _ => 0#64
  | .hget => 0#64
  | .new _ k => ofSint64 k
  | .add _ => 0#64
  | .present _ => 0#64
  | .count => 0#64
  | .free => 0#64

/-- The encoder (30_encoding R70): the one command word of an instruction, zeros in ignored bits. -/
def encode (i : Instr) : CommandWord := packCommand i.opcode.code i.operandA i.operandB

/-- The bits of a command word that a command with this opcode uses (30_encoding R62 to R64); the rest are ignored. -/
def Opcode.usedBits : Opcode → CommandWord
  | .hinit => 0xFF_0000000000000000_0000000000000000#136
  | .hbyte => 0xFF_00000000000000FF_0000000000000000#136
  | .hget => 0xFF_0000000000000000_0000000000000000#136
  | .new => 0xFF_FFFFFFFFFFFFFFFF_FFFFFFFFFFFFFFFF#136
  | .add => 0xFF_FFFFFFFFFFFFFFFF_0000000000000000#136
  | .present => 0xFF_FFFFFFFFFFFFFFFF_0000000000000000#136
  | .count => 0xFF_0000000000000000_0000000000000000#136
  | .free => 0xFF_0000000000000000_0000000000000000#136

/-- The command word whose lowest `nbits` bits are those of `w` and whose other bits are 0, bit 0 the least
significant (00_scope R14; spec/opcode_table.json). A command is one word (30_encoding R67) and has no byte-serial
form (20_memory R42), so nothing is left to lay out. -/
def tableWord (nbits w : Nat) : CommandWord := BitVec.ofNat 136 (w % 2 ^ nbits)

/-- The instruction the decoder reads from a row's bits as spec/opcode_table.json numbers them. -/
def decodeTableWord (nbits w : Nat) : Option Instr := (decode (tableWord nbits w)).toOption

end Sys2Proof
end

