-- ==== Sys2Proof/Config.lean ====
section
/-! DEFINITION. What an implementation of the block fixes: the open parameter `BITS_MAX` and the two constants of
FNV-1. -/

namespace Sys2Proof

/-- The one open parameter of the model (00_scope R11; 92 D9). It is no state of the block (10_state R31); a model
takes it as an argument, and State carries that argument (log entry 2). -/
structure Config where
  /-- `BITS_MAX`, how many bits of physical bit-array storage the block has. -/
  bitsMax : Nat
  deriving DecidableEq, Repr

/-- `1 <= BITS_MAX <= 2^63 - 1` (00_scope R11). -/
abbrev Config.wf (c : Config) : Prop := 1 ≤ c.bitsMax ∧ c.bitsMax ≤ 2 ^ 63 - 1

/-- `FNV_OFFSET_BASIS`, the decimal literal of 00_scope R8. -/
def fnvOffsetBasis : Word := 14695981039346656037#64

/-- `FNV_PRIME`, the decimal literal of 00_scope R8. -/
def fnvPrime : Word := 1099511628211#64

end Sys2Proof
end

