-- ==== Sys2Proof/Machine/State.lean ====
section
/-! DEFINITION. The state of the block, of its ports and of its host; faults and refusals; the state right after
reset. Plain data throughout. -/

namespace Sys2Proof.Machine

/-- The contents of `BITS` (20_memory R40): the addresses of the bits that are 1, rising, each once. An address that
is not listed reads 0, because `NEW` writes 0 to every bit (42_filter R101). The smallest addressable unit is the bit,
so the list holds addresses of set bits and not address and byte pairs (log entry 3). -/
abbrev Memory := List Nat

/-- The canonical form of `Memory`: addresses strictly rising. -/
abbrev Memory.wf (b : Memory) : Prop := b.Pairwise (· < ·)

/-- The filter instance, present exactly while `VALID = 1` (10_state R20, R29). -/
structure Filter where
  /-- `CAP`, the `capacity_n` of the instance (10_state R26). -/
  cap : Nat
  /-- `K`, the `rounds_k` of the instance (10_state R27). -/
  k : Nat
  /-- `BITS` (10_state R28). -/
  bits : Memory
  deriving DecidableEq, Repr

/-- The six statuses (60_exceptions R140). -/
inductive Status where
  | ok
  | invalidArgument
  | notConstructed
  | illegalCommand
  | capacityExceeded
  | alreadyConstructed
  deriving DecidableEq, Repr

/-- A response, `STATUS` and `VALUE` (30_encoding R61). -/
structure Response where
  status : Status
  value : Word
  deriving DecidableEq, Repr

/-- One change the host makes to the pins it drives (30_encoding R71; 70_reset R164). -/
inductive HostAction where
  /-- Drive `cmd_valid` and `cmd_data`: `some w` presents the word `w`, `none` presents nothing. -/
  | driveCommand (c : Option CommandWord)
  /-- Drive `rsp_ready`. -/
  | driveRspReady (level : Bool)
  /-- Drive `rst`. -/
  | driveRst (level : Bool)
  deriving DecidableEq, Repr

/-- Why the machine can stop. The spec has no fault that stops the block (00_scope R19). -/
inductive Fault where
  /-- A bit was accessed outside `0 <= i < M`, where no bit exists (00_scope R17; 20_memory R45). Raised by
  `execAdd` and `execPresent` when a memory primitive gives no bit. Safe: the model stops. No state that satisfies the
  invariant reaches it, because every address is a remainder modulo `M >= 1` (log entry 8). -/
  | bitAddressOutsideArray
  deriving DecidableEq, Repr

/-- Why an instruction can have no meaning. -/
inductive Refusal where
  /-- Raised only by an arm of `exec` whose instruction has no meaning yet. Safe: the model stops. No arm does. -/
  | notModelled (mnemonic : String)
  deriving DecidableEq, Repr

/-- The whole state. -/
structure State where
  /-- The parameter `BITS_MAX`; no step changes it (10_state R31; log entry 2). The model's own field. -/
  config : Config
  /-- `ACC`, the FNV-1 accumulator (10_state R23). -/
  acc : Word
  /-- The filter instance: `VALID = 1` exactly when there is one (10_state R25, R29; log entry 1). -/
  filter : Option Filter
  /-- The response port: the response that waits to be taken (30_encoding R71; 10_state R31). -/
  rspPort : Option Response
  /-- The level of `rst` (70_reset R160). -/
  rst : Bool
  /-- The host's `cmd_valid` and `cmd_data`: the word presented and not yet accepted (30_encoding R71). -/
  cmdPort : Option CommandWord
  /-- The host's `rsp_ready` (30_encoding R71). -/
  rspReady : Bool
  /-- What the host will do to its pins, first action first (10_state R31; log entry 4). The model's own field. -/
  host : List HostAction
  /-- The responses the host has taken, oldest first (30_encoding R71; log entry 5). The model's own field. -/
  taken : List Response
  deriving DecidableEq, Repr

/-- `ACC <- v` (00_scope R17). -/
def State.setAcc (s : State) (v : Word) : State := { s with acc := v }

/-- Replace the filter part of the state: `some` makes `VALID = 1`, `none` makes `VALID = 0` (10_state R29). -/
def State.setFilter (s : State) (f : Option Filter) : State := { s with filter := f }

/-- Present a response (30_encoding R71). -/
def State.reply (s : State) (r : Response) : State := { s with rspPort := some r }

/-- The presented word has been accepted, so it is presented no more (30_encoding R71). -/
def State.acceptCommand (s : State) : State := { s with cmdPort := none }

/-- The host takes the response that waits, if there is one (30_encoding R71). -/
def State.takeResponse (s : State) : State :=
  { s with taken := s.taken ++ s.rspPort.toList, rspPort := none }

/-- The block's own state becomes the reset state (10_state R32; 70_reset R160). The pins, the host and the
parameter are not the block's. -/
def State.resetBlock (s : State) : State :=
  { s with acc := fnvOffsetBasis, filter := none, rspPort := none }

/-- The machine right after reset (10_state R32): `ACC` is the offset basis, `VALID = 0`, `CAP`, `K` and `BITS` have no
value, no response is pending. The host's pins, its actions and the parameter stand as log entries 2, 5 and 6 say. -/
def State.reset : State :=
  { config := { bitsMax := 2 ^ 63 - 1 }
    acc := fnvOffsetBasis
    filter := none
    rspPort := none
    rst := false
    cmdPort := none
    rspReady := false
    host := []
    taken := [] }

end Sys2Proof.Machine
end

