-- ==== Sys2Proof/Machine/Ops.lean ====
section
/-! DEFINITION. The named operations: arithmetic (00_scope R16), the bit-array primitives (00_scope R17; 20_memory),
the response word, and sending a result or an error status (00_scope R17; 60_exceptions R146). -/

namespace Sys2Proof.Machine

/-! ### Arithmetic -/

/-- `rotl64(v, r)` for `0 < r < 64` (00_scope R16). -/
def rotl64 (v : Word) (r : Nat) : Word := (v <<< r) + (v >>> (64 - r))

/-- `a umod m` for `m >= 1` (00_scope R16). -/
def umod (a m : Nat) : Nat := a % m

/-- One FNV-1 step: multiply first, then xor (40_hash R80, R82). -/
def fnvStep (acc : Word) (byte : Byte) : Word := (acc * fnvPrime) ^^^ byte.setWidth 64

/-- `fnv1` of a byte sequence (40_hash R80). -/
def fnv1 (bytes : List Byte) : Word := bytes.foldl fnvStep fnvOffsetBasis

/-! ### The bit array -/

/-- The bit at an address: 1 exactly when the address is listed. -/
def Memory.read (b : Memory) (i : Nat) : Bool := decide (i ∈ b)

/-- Write 1: list the address, in order, once. -/
def Memory.setBit : Memory → Nat → Memory
  | [], i => [i]
  | a :: b, i => if i < a then i :: a :: b else if i = a then a :: b else a :: Memory.setBit b i

/-- Write 0: the address is listed no more. -/
def Memory.clearBit (b : Memory) (i : Nat) : Memory := b.filter (fun a => a ≠ i)

/-- Write one bit, keeping the canonical form. -/
def Memory.write (b : Memory) (i : Nat) (v : Bool) : Memory :=
  if v then Memory.setBit b i else Memory.clearBit b i

/-- An array whose bits are all 0, of any length (42_filter R101). -/
def Memory.zeros : Memory := []

/-- `SIZE(n, k) = n`, the number of bits of the array (00_scope R10). -/
def bitsLength (n _k : Nat) : Nat := n

/-- `M = SIZE(CAP, K)` (10_state R24). -/
def Filter.m (f : Filter) : Nat := bitsLength f.cap f.k

/-- `MemRead(i, 1)` (00_scope R17); no bit exists outside `0 <= i < M` (20_memory R45). -/
def Filter.memRead (f : Filter) (i : Nat) : Option Bool :=
  if i < f.m then some (Memory.read f.bits i) else none

/-- `MemWrite(i, 1, v)` (00_scope R17); no bit exists outside `0 <= i < M` (20_memory R45). -/
def Filter.memWrite (f : Filter) (i : Nat) (v : Bool) : Option Filter :=
  if i < f.m then some { f with bits := Memory.write f.bits i v } else none

/-- `MemWrite(i, 1, 1)` at each address in turn (42_filter R102). -/
def Filter.setAll (f : Filter) : List Nat → Option Filter
  | [] => some f
  | i :: is =>
    match f.memWrite i true with
    | none => none
    | some f' => Filter.setAll f' is

/-- The conjunction `r AND MemRead(i, 1) AND …` over the addresses in turn (42_filter R103). -/
def Filter.testAll (f : Filter) (r : Bool) : List Nat → Option Bool
  | [] => some r
  | i :: is =>
    match f.memRead i with
    | none => none
    | some v => Filter.testAll f (r && v) is

/-- `popcount(BITS)`: how many `j` in `0 … M-1` have `BITS[j] = 1` (00_scope R17; 42_filter R104), counted on the
listed addresses. -/
def Filter.popcount (f : Filter) : Nat := (f.bits.filter (fun j => decide (j < f.m))).length

/-! ### Responses -/

/-- The numeric code of a status (60_exceptions R140). -/
def Status.code : Status → Byte
  | .ok => 0x00#8
  | .invalidArgument => 0x01#8
  | .notConstructed => 0x02#8
  | .illegalCommand => 0x03#8
  | .capacityExceeded => 0x04#8
  | .alreadyConstructed => 0x05#8

/-- The response word `STATUS ## VALUE` (30_encoding R61). -/
def Response.word (r : Response) : ResponseWord := r.status.code ++ r.value

/-- The boolean result of `PRESENT` as `VALUE` (30_encoding R63). -/
def boolValue (b : Bool) : Word := if b then 1#64 else 0#64

/-- `respond(v)`: send `(OK, v)` and end the command (00_scope R17). -/
def respond (v : Word) (s : State) : Host.Outcome State Fault Refusal :=
  .next (s.reply { status := .ok, value := v })

/-- `raise <Status>`, the block's one synchronous exception: no state changes, `(STATUS, 0)` is sent, the command is
over (00_scope R17; 60_exceptions R146). Nothing is saved, so nothing is there to return to (R149). -/
def raise (st : Status) (s : State) : Host.Outcome State Fault Refusal :=
  .next (s.reply { status := st, value := 0#64 })

/-- What the block does with a word whose `OP` is unassigned (30_encoding R65; 60_exceptions R143). -/
def illegalCommand (s : State) : Host.Outcome State Fault Refusal := raise .illegalCommand s

end Sys2Proof.Machine
end

