-- ==== Sys2Proof/Machine/Flags.lean ====
section
/-! DEFINITION. The flag `VALID` and the checks that decide the status of a filter command (10_state R25;
60_exceptions R140 to R147). No arithmetic sets a flag (10_state R25). -/

namespace Sys2Proof.Machine

/-- `VALID`: 1 exactly when a filter instance exists (10_state R25, R29). -/
def State.valid (s : State) : Bool := s.filter.isSome

/-- The status of `NEW n, k`: the checks of 42_filter R101 in the order of 60_exceptions R147, lines 2 to 4. -/
def newStatus (n k : Int) (s : State) : Status :=
  if n ≤ 0 ∨ k ≤ 0 then .invalidArgument
  else if s.valid then .alreadyConstructed
  else if s.config.bitsMax < bitsLength n.toNat k.toNat then .capacityExceeded
  else .ok

/-- Do something with the filter instance, or raise `NotConstructed` when there is none (60_exceptions R142, R147
line 5). -/
def withInstance (s : State) (act : Filter → Host.Outcome State Fault Refusal) :
    Host.Outcome State Fault Refusal :=
  match s.filter with
  | none => raise .notConstructed s
  | some f => act f

end Sys2Proof.Machine
end

