-- ==== Sys2Proof/Machine/Operands.lean ====
section
/-! DEFINITION. The one addressing mode: from a hash operand to bit addresses (41_index R90 to R93; 42_filter R107). -/

namespace Sys2Proof.Machine

/-- `h1 = h` (41_index R91). -/
def seed1 (h : Word) : Word := h

/-- `h2 = rotl64(h, 32)` (41_index R91). -/
def seed2 (h : Word) : Word := rotl64 h 32

/-- `g_i = h1 +64 (i *64 h2)` (41_index R92). -/
def roundSum (h : Word) (i : Nat) : Word := seed1 h + BitVec.ofNat 64 i * seed2 h

/-- `index_i = g_i umod m` (41_index R92), the effective address of round `i` (42_filter R107). -/
def index (h : Word) (i m : Nat) : Nat := umod (roundSum h i).toNat m

/-- `indices(h, k, m)`: the addresses of rounds `0 … k-1`, in order (41_index R90). -/
def indices (h : Word) (k m : Nat) : List Nat := (List.range k).map (fun i => index h i m)

/-- The addresses an `ADD` or a `PRESENT` of `h` accesses on this instance: `k = K`, `m = M` (41_index R90). -/
def Filter.addresses (f : Filter) (h : Word) : List Nat := indices h f.k f.m

end Sys2Proof.Machine
end

