-- ==== Sys2Proof/Machine/BloomFilter.lean ====
section
/-! DEFINITION. The filter family: `NEW`, `ADD`, `PRESENT`, `COUNT`, `FREE` (42_filter R100 to R105). They never touch
`ACC`. -/

namespace Sys2Proof.Machine

/-- `NEW capacity_n, rounds_k` (42_filter R101). -/
def execNew (n k : Int) (s : State) : Host.Outcome State Fault Refusal :=
  match newStatus n k s with
  | .ok =>
    respond (BitVec.ofNat 64 (bitsLength n.toNat k.toNat))
      (s.setFilter (some { cap := n.toNat, k := k.toNat, bits := Memory.zeros }))
  | st => raise st s

/-- `ADD h` (42_filter R102). -/
def execAdd (h : Word) (s : State) : Host.Outcome State Fault Refusal :=
  withInstance s fun f =>
    match f.setAll (f.addresses h) with
    | none => .fault .bitAddressOutsideArray
    | some f' => respond 0#64 (s.setFilter (some f'))

/-- `PRESENT h` (42_filter R103). -/
def execPresent (h : Word) (s : State) : Host.Outcome State Fault Refusal :=
  withInstance s fun f =>
    match f.testAll true (f.addresses h) with
    | none => .fault .bitAddressOutsideArray
    | some r => respond (boolValue r) s

/-- `COUNT` (42_filter R104). -/
def execCount (s : State) : Host.Outcome State Fault Refusal :=
  withInstance s fun f => respond (BitVec.ofNat 64 f.popcount) s

/-- `FREE` (42_filter R105). -/
def execFree (s : State) : Host.Outcome State Fault Refusal :=
  withInstance s fun _ => respond 0#64 (s.setFilter none)

end Sys2Proof.Machine
end

