-- ==== Sys2Proof/Machine/Hash.lean ====
section
/-! DEFINITION. The hash family: `HINIT`, `HBYTE`, `HGET` (40_hash R81 to R83). They read and write `ACC` only. -/

namespace Sys2Proof.Machine

/-- `HINIT` (40_hash R81). -/
def execHinit (s : State) : Host.Outcome State Fault Refusal :=
  respond fnvOffsetBasis (s.setAcc fnvOffsetBasis)

/-- `HBYTE byte` (40_hash R82). -/
def execHbyte (byte : Byte) (s : State) : Host.Outcome State Fault Refusal :=
  respond (fnvStep s.acc byte) (s.setAcc (fnvStep s.acc byte))

/-- `HGET` (40_hash R83). -/
def execHget (s : State) : Host.Outcome State Fault Refusal := respond s.acc s

end Sys2Proof.Machine
end

