-- ==== Sys2Proof/Machine/Dispatch.lean ====
section
/-! DEFINITION. One arm per instruction: its meaning. -/

namespace Sys2Proof.Machine

def exec (i : Instr) (s : State) : Host.Outcome State Fault Refusal :=
  match i with
  | .hinit => Sys2Proof.Machine.execHinit s
  | .hbyte byte => Sys2Proof.Machine.execHbyte byte s
  | .hget => Sys2Proof.Machine.execHget s
  | .new n k => Sys2Proof.Machine.execNew n k s
  | .add h => Sys2Proof.Machine.execAdd h s
  | .present h => Sys2Proof.Machine.execPresent h s
  | .count => Sys2Proof.Machine.execCount s
  | .free => Sys2Proof.Machine.execFree s

end Sys2Proof.Machine
end

