-- ==== Sys2Proof/Machine/Ports.lean ====
section
/-! DEFINITION. The ports: the block's signals, the handshakes, reset, and which event comes next (30_encoding R71;
70_reset R160, R162, R164). -/

namespace Sys2Proof.Machine

/-- `cmd_ready`: no response is waiting to be taken and `rst = 0`; no earlier command is ever still being performed,
because a command is one step (30_encoding R71; 70_reset R160). -/
def State.cmdReady (s : State) : Bool := !s.rst && s.rspPort.isNone

/-- `rsp_valid` (30_encoding R71; 70_reset R160). -/
def State.rspValid (s : State) : Bool := !s.rst && s.rspPort.isSome

/-- `rsp_data`, where a response is presented (30_encoding R61, R71). -/
def State.rspData (s : State) : Option ResponseWord :=
  if s.rspValid then s.rspPort.map Response.word else none

/-- The word that is accepted now: `cmd_valid = cmd_ready = 1` (30_encoding R71). -/
def State.accepted (s : State) : Option CommandWord := if s.cmdReady then s.cmdPort else none

/-- The host drives `rst` (70_reset R160): at level 1, and when the level returns from 1 to 0, the block is in the
reset state. -/
def State.driveRst (s : State) (level : Bool) : State :=
  if level || s.rst then { s.resetBlock with rst := level } else s

/-- One change of the pins the host drives. -/
def State.applyAction (s : State) : HostAction → State
  | .driveCommand c => { s with cmdPort := c }
  | .driveRspReady level => { s with rspReady := level }
  | .driveRst level => s.driveRst level

/-- The host makes its next change; when it has none, nothing happens: the block is idle (70_reset R165). -/
def State.hostTurn (s : State) : State :=
  match s.host with
  | [] => s
  | a :: rest => { s with host := rest }.applyAction a

/-- The next event at the ports: the command word accepted, if one is, and the state after the handshake. A response
is taken when `rsp_valid = rsp_ready = 1`; else a word is accepted when `cmd_valid = cmd_ready = 1`; else the host
changes a pin (30_encoding R71; the order is log entry 4). -/
def portTurn (s : State) : Option CommandWord × State :=
  if s.rspValid && s.rspReady then (none, s.takeResponse)
  else
    match s.accepted with
    | some w => (some w, s.acceptCommand)
    | none => (none, s.hostTurn)

end Sys2Proof.Machine
end

