-- ==== Sys2Proof/Machine/Step.lean ====
section
/-! DEFINITION. One step: the next event at the ports, and the whole command when a word is accepted
(30_encoding R71; 20_memory R46). -/

namespace Sys2Proof.Machine

/-- Perform one accepted command word, completely (20_memory R46): a legal one by its meaning, an illegal one by
`IllegalCommand` (30_encoding R65). -/
def perform (w : CommandWord) (s : State) : Host.Outcome State Fault Refusal :=
  match decode w with
  | .ok i => exec i s
  | .error _ => illegalCommand s

/-- One step: one event at the ports; when it is the acceptance of a word, the command is performed and its response
presented in this same step (30_encoding R71). -/
def step (s : State) : Host.Outcome State Fault Refusal :=
  match portTurn s with
  | (some w, s') => perform w s'
  | (none, s') => .next s'

/-- `s` with a command word presented, the response that waits taken and `rst` at 0, so that the very next step
accepts and performs exactly that word (log entry 7). -/
def State.withFetchWord (s : State) (nbits w : Nat) : State :=
  { s.takeResponse with rst := false, cmdPort := some (tableWord nbits w) }

end Sys2Proof.Machine
end

