-- ==== Sys2Proof/Machine/Assembler.lean ====
section
/-! DEFINITION. The assembler syntax and the pseudo-instruction `FNV1` (30_encoding R68, R69; 92 D24): text in,
instructions out; and how a response is written. What R68 leaves open is log entry 12. -/

namespace Sys2Proof.Machine

/-- The mnemonic of an opcode (30_encoding R62, R68). -/
def mnemonicOf : Opcode → String
  | .hinit => "HINIT"
  | .hbyte => "HBYTE"
  | .hget => "HGET"
  | .new => "NEW"
  | .add => "ADD"
  | .present => "PRESENT"
  | .count => "COUNT"
  | .free => "FREE"

/-- The name of a status (60_exceptions R140). -/
def Status.name : Status → String
  | .ok => "OK"
  | .invalidArgument => "InvalidArgument"
  | .notConstructed => "NotConstructed"
  | .illegalCommand => "IllegalCommand"
  | .capacityExceeded => "CapacityExceeded"
  | .alreadyConstructed => "AlreadyConstructed"

/-- A response as text, `-> STATUS_NAME, value` (30_encoding R68). DESIGN CHOICE, safe: the value is always in decimal, as
in R68's one example; the spec fixes no base and writes others elsewhere, as `-> OK, 0x…` (40_hash R81, R83; log entry
12). -/
def Response.text (r : Response) : String := "-> " ++ r.status.name ++ ", " ++ toString r.value.toNat

/-- The commands `FNV1 b_0, …, b_(n-1)` stands for (30_encoding R69). -/
def expandFnv1 (bytes : List Byte) : List Instr := .hinit :: bytes.map .hbyte ++ [.hget]

/-! ### Tokens -/

/-- A lexical unit of a line. -/
inductive Token where
  /-- A mnemonic or a number, as its characters. -/
  | atom (cs : List Char)
  /-- A one-character literal. -/
  | char (c : Char)
  /-- A double-quoted string. -/
  | text (cs : List Char)
  | comma
  deriving DecidableEq, Repr

/-- Where the lexer stands: outside a string with the characters of an atom so far, or inside one with its
characters so far (both reversed). -/
inductive LexMode where
  | outside (atom : List Char)
  | inside (text : List Char)
  deriving DecidableEq, Repr

/-- End the atom in front of the tokens `ts`, if one has begun. -/
def endAtom (atom : List Char) (ts : List Token) : List Token :=
  if atom.isEmpty then ts else .atom atom.reverse :: ts

/-- The tokens of a line; `;` outside a literal starts a comment (30_encoding R68). A string must be closed. -/
def lex : LexMode → List Char → Option (List Token)
  | .outside a, [] => some (endAtom a [])
  | .inside _, [] => none
  | .inside t, '"' :: cs => (lex (.outside []) cs).map (fun ts => .text t.reverse :: ts)
  | .inside t, c :: cs => lex (.inside (c :: t)) cs
  | .outside a, '\'' :: c :: '\'' :: cs => (lex (.outside []) cs).map (fun ts => endAtom a (.char c :: ts))
  | .outside a, '"' :: cs => (lex (.inside []) cs).map (endAtom a)
  | .outside a, ';' :: _ => some (endAtom a [])
  | .outside a, ',' :: cs => (lex (.outside []) cs).map (fun ts => endAtom a (.comma :: ts))
  | .outside a, c :: cs =>
    if c.isWhitespace then (lex (.outside []) cs).map (endAtom a) else lex (.outside (c :: a)) cs

/-! ### Operands -/

/-- An operand as written. -/
inductive Operand where
  | decimal (v : Int)
  | hex (v : Nat)
  | char (c : Char)
  | text (cs : List Char)
  deriving DecidableEq, Repr

/-- The value of a digit in a base of at most 16. -/
def digitValue (base : Nat) (c : Char) : Option Nat :=
  let v :=
    if '0' ≤ c ∧ c ≤ '9' then c.toNat - '0'.toNat
    else if 'A' ≤ c ∧ c ≤ 'F' then c.toNat - 'A'.toNat + 10
    else if 'a' ≤ c ∧ c ≤ 'f' then c.toNat - 'a'.toNat + 10
    else base
  if v < base then some v else none

/-- The digits that follow a value; `_` only groups them (00_scope R14). -/
def digitsFrom (base : Nat) : Nat → List Char → Option Nat
  | v, [] => some v
  | v, '_' :: cs => digitsFrom base v cs
  | v, c :: cs =>
    match digitValue base c with
    | none => none
    | some d => digitsFrom base (base * v + d) cs

/-- A number without sign: it begins with a digit. -/
def parseNat (base : Nat) (cs : List Char) : Option Nat :=
  match cs with
  | [] => none
  | c :: rest =>
    match digitValue base c with
    | none => none
    | some d => digitsFrom base d rest

/-- A number, decimal (possibly signed) or `0x…` (00_scope R14; 30_encoding R68). -/
def parseNumber : List Char → Option Operand
  | '0' :: 'x' :: cs => (parseNat 16 cs).map .hex
  | '-' :: cs => (parseNat 10 cs).map (fun v => .decimal (-(v : Int)))
  | cs => (parseNat 10 cs).map (fun v => .decimal v)

/-- The operands after a mnemonic: separated by commas. -/
def parseOperands : List Token → Option (List Operand)
  | [] => some []
  | [.atom cs] => (parseNumber cs).map (fun o => [o])
  | [.char c] => some [.char c]
  | [.text cs] => some [.text cs]
  | .atom cs :: .comma :: t :: ts =>
    match parseNumber cs, parseOperands (t :: ts) with
    | some o, some os => some (o :: os)
    | _, _ => none
  | .char c :: .comma :: t :: ts => (parseOperands (t :: ts)).map (fun os => .char c :: os)
  | .text cs :: .comma :: t :: ts => (parseOperands (t :: ts)).map (fun os => .text cs :: os)
  | _ => none

/-- An unsigned 64-bit operand, `0 … 2^64-1` (30_encoding R68). -/
def Operand.unsigned : Operand → Option Word
  | .decimal v => if 0 ≤ v ∧ v < 2 ^ 64 then some (BitVec.ofNat 64 v.toNat) else none
  | .hex v => if v < 2 ^ 64 then some (BitVec.ofNat 64 v) else none
  | .char _ => none
  | .text _ => none

/-- A signed 64-bit operand; `0x…` gives the bit pattern (30_encoding R68). -/
def Operand.signed : Operand → Option Int
  | .decimal v => if inSigned64 v then some v else none
  | .hex v => if v < 2 ^ 64 then some (sint64 (BitVec.ofNat 64 v)) else none
  | .char _ => none
  | .text _ => none

/-- A byte, `0 … 255` or a one-character literal that stands for its ASCII code (30_encoding R68). -/
def Operand.byte : Operand → Option Byte
  | .decimal v => if 0 ≤ v ∧ v < 256 then some (BitVec.ofNat 8 v.toNat) else none
  | .hex v => if v < 256 then some (BitVec.ofNat 8 v) else none
  | .char c => if c.toNat < 128 then some (BitVec.ofNat 8 c.toNat) else none
  | .text _ => none

/-- The UTF-8 bytes of a character (30_encoding R69; 40_hash R86). -/
def utf8Bytes (c : Char) : List Byte :=
  let n := c.toNat
  if n < 0x80 then [BitVec.ofNat 8 n]
  else if n < 0x800 then [BitVec.ofNat 8 (0xC0 + n / 64), BitVec.ofNat 8 (0x80 + n % 64)]
  else if n < 0x10000 then
    [BitVec.ofNat 8 (0xE0 + n / 4096), BitVec.ofNat 8 (0x80 + n / 64 % 64), BitVec.ofNat 8 (0x80 + n % 64)]
  else
    [BitVec.ofNat 8 (0xF0 + n / 262144), BitVec.ofNat 8 (0x80 + n / 4096 % 64),
      BitVec.ofNat 8 (0x80 + n / 64 % 64), BitVec.ofNat 8 (0x80 + n % 64)]

/-- Byte operands, one after the other. -/
def bytesOf : List Operand → Option (List Byte)
  | [] => some []
  | o :: os =>
    match o.byte, bytesOf os with
    | some b, some bs => some (b :: bs)
    | _, _ => none

/-- The byte sequence after `FNV1`: a string as its UTF-8 bytes, or a list of bytes (30_encoding R69). -/
def fnv1Bytes : List Operand → Option (List Byte)
  | [.text cs] => some (cs.flatMap utf8Bytes)
  | os => bytesOf os

/-! ### Lines -/

/-- The commands of a mnemonic with its operands (30_encoding R68, R69); `none` where the line is ill-formed. -/
def assembleCommand (mnemonic : String) (os : List Operand) : Option (List Instr) :=
  if mnemonic = "FNV1" then (fnv1Bytes os).map expandFnv1
  else if mnemonic = "HINIT" ∧ os.isEmpty then some [.hinit]
  else if mnemonic = "HGET" ∧ os.isEmpty then some [.hget]
  else if mnemonic = "COUNT" ∧ os.isEmpty then some [.count]
  else if mnemonic = "FREE" ∧ os.isEmpty then some [.free]
  else
    match os with
    | [o] =>
      if mnemonic = "HBYTE" then o.byte.map (fun b => [.hbyte b])
      else if mnemonic = "ADD" then o.unsigned.map (fun h => [.add h])
      else if mnemonic = "PRESENT" then o.unsigned.map (fun h => [.present h])
      else none
    | [o, o'] =>
      if mnemonic = "NEW" then
        match o.signed, o'.signed with
        | some n, some k => some [.new n k]
        | _, _ => none
      else none
    | _ => none

/-- One line of assembler text: no command (blank or comment only), one, or the expansion of `FNV1`. -/
def assembleLine (line : String) : Option (List Instr) :=
  match lex (.outside []) line.toList with
  | some [] => some []
  | some (.atom m :: ts) =>
    match parseOperands ts with
    | some os => assembleCommand (String.ofList m) os
    | none => none
  | _ => none

/-- A program, one line after the other, as the command words the host would send. -/
def assemble : List String → Option (List CommandWord)
  | [] => some []
  | line :: lines =>
    match assembleLine line, assemble lines with
    | some is, some ws => some (is.map encode ++ ws)
    | _, _ => none

end Sys2Proof.Machine
end

