-- ==== Sys2Proof/Safety.lean ====
section
/-! DEFINITION. What counts as a safe state and a run, in the terms the claims use (43_properties R134; 70_reset R165).
-/

namespace Sys2Proof.Machine

/-- The filter record is well formed (43_properties R134): `CAP` and `K` in `1 … 2^63-1`, `1 <= M <= BITS_MAX`, and
`BITS` an array of `M` bits in canonical form. -/
abbrev Filter.wf (f : Filter) (c : Config) : Prop :=
  (1 ≤ f.cap ∧ f.cap ≤ 2 ^ 63 - 1) ∧ (1 ≤ f.k ∧ f.k ≤ 2 ^ 63 - 1) ∧ (1 ≤ f.m ∧ f.m ≤ c.bitsMax) ∧
    Memory.wf f.bits ∧ ∀ j ∈ f.bits, j < f.m

/-- `VALUE = 0` when `STATUS != OK` (30_encoding R61; 60_exceptions R140). -/
abbrev Response.wf (r : Response) : Prop := r.status ≠ .ok → r.value = 0#64

/-- The parameter is legal and the filter, if there is one, is well formed (00_scope R11; 43_properties R134). -/
abbrev State.BlockWf (s : State) : Prop := s.config.wf ∧ ∀ f ∈ s.filter, f.wf s.config

/-- The invariant of the machine: the block is well formed, every response is, and while `rst = 1` the block is in the
reset state (43_properties R134; 30_encoding R61; 70_reset R160). -/
abbrev State.Inv (s : State) : Prop :=
  s.BlockWf ∧ (∀ r ∈ s.rspPort, r.wf) ∧ (∀ r ∈ s.taken, r.wf) ∧
    (s.rst = true → s.acc = fnvOffsetBasis ∧ s.filter = none ∧ s.rspPort = none)

/-- The accepted command words of a history, performed one after the other (20_memory R46; 70_reset R165). Stops at the
first fault or refusal. -/
def performAll : List CommandWord → State → Host.Outcome State Fault Refusal
  | [], s => .next s
  | w :: ws, s =>
    match perform w s with
    | .next s' => performAll ws s'
    | .fault r => .fault r
    | .refused r => .refused r

/-- The responses to a history, in order (30_encoding R71; 70_reset R164). -/
def responses : List CommandWord → State → List Response
  | [], _ => []
  | w :: ws, s =>
    match perform w s with
    | .next s' => s'.rspPort.toList ++ responses ws s'
    | .fault _ => []
    | .refused _ => []

/-- Steps of the machine, one after the other. -/
def stepN : Nat → State → Host.Outcome State Fault Refusal
  | 0, s => .next s
  | n + 1, s =>
    match step s with
    | .next s' => stepN n s'
    | .fault r => .fault r
    | .refused r => .refused r

/-- The bytes the `HBYTE` commands of a list of words carry, in order (20_memory R42; 40_hash R84). -/
def hashBytes : List CommandWord → List Byte
  | [] => []
  | w :: ws =>
    match decode w with
    | .ok (.hbyte byte) => byte :: hashBytes ws
    | _ => hashBytes ws

/-- The word is an `ADD`. -/
def isAdd (w : CommandWord) : Bool :=
  match decode w with
  | .ok (.add _) => true
  | _ => false

/-- The word is a legal filter command, or it is illegal: anything but a hash command. -/
def notHashCommand (w : CommandWord) : Bool :=
  match decode w with
  | .ok .hinit => false
  | .ok (.hbyte _) => false
  | .ok .hget => false
  | _ => true

end Sys2Proof.Machine
end

