-- ==== Sys2Proof/Certificates/Slice0/Obligations.lean ====
section
/-! DEFINITION. The statements for the provers, each from a numbered rule of spec/. -/

open Sys2Proof Sys2Proof.Machine

/-! ### Words -/

/-- 30_encoding R70: the decoder as a table over the integer a word is, with its fields cut out by division; the
ignored bits; decode of encode; encode of decode. -/
def Obligations.DecodeAndEncodeAgree : Prop :=
  (∀ w : CommandWord,
    let op := w.toNat / 2 ^ 128
    let a := w.toNat / 2 ^ 64 % 2 ^ 64
    let b := w.toNat % 2 ^ 64
    let signed := fun v : Nat => if v < 2 ^ 63 then (v : Int) else (v : Int) - 2 ^ 64
    decode w =
      if op = 0x01 then .ok .hinit
      else if op = 0x02 then .ok (.hbyte (BitVec.ofNat 8 (a % 256)))
      else if op = 0x03 then .ok .hget
      else if op = 0x10 then .ok (.new (signed a) (signed b))
      else if op = 0x11 then .ok (.add (BitVec.ofNat 64 a))
      else if op = 0x12 then .ok (.present (BitVec.ofNat 64 a))
      else if op = 0x13 then .ok .count
      else if op = 0x14 then .ok .free
      else .error (.illegalOpcode (BitVec.ofNat 8 op))) ∧
  (∀ (w w' : CommandWord) (o : Opcode), opField w = o.code → w &&& o.usedBits = w' &&& o.usedBits →
    decode w = decode w') ∧
  (∀ i : Instr, i.WellFormed → decode (encode i) = .ok i ∧ encode i &&& ~~~i.opcode.usedBits = 0) ∧
  (∀ (w : CommandWord) (i : Instr), decode w = .ok i →
    i.WellFormed ∧ (encode i = w ↔ w &&& ~~~i.opcode.usedBits = 0))

/-- 30_encoding R73: the worked encodings, both ways, and the illegal words. -/
def Obligations.WorkedEncodings : Prop :=
  (decode 0x0100000000000000000000000000000000#136 = .ok .hinit ∧
    encode .hinit = 0x0100000000000000000000000000000000#136) ∧
  (decode 0x0200000000000000680000000000000000#136 = .ok (.hbyte 0x68#8) ∧
    encode (.hbyte 0x68#8) = 0x0200000000000000680000000000000000#136) ∧
  (decode 0x0300000000000000000000000000000000#136 = .ok .hget ∧
    encode .hget = 0x0300000000000000000000000000000000#136) ∧
  (decode 0x100000000000002710000000000000000A#136 = .ok (.new 10000 10) ∧
    encode (.new 10000 10) = 0x100000000000002710000000000000000A#136) ∧
  (decode 0x10FFFFFFFFFFFFFFFF000000000000000A#136 = .ok (.new (-1) 10) ∧
    encode (.new (-1) 10) = 0x10FFFFFFFFFFFFFFFF000000000000000A#136) ∧
  (decode 0x117B495389BDBDD4C70000000000000000#136 = .ok (.add 0x7B495389BDBDD4C7#64) ∧
    encode (.add 0x7B495389BDBDD4C7#64) = 0x117B495389BDBDD4C70000000000000000#136) ∧
  (decode 0x128C06877B6C117D990000000000000000#136 = .ok (.present 0x8C06877B6C117D99#64) ∧
    encode (.present 0x8C06877B6C117D99#64) = 0x128C06877B6C117D990000000000000000#136) ∧
  (decode 0x1300000000000000000000000000000000#136 = .ok .count ∧
    encode .count = 0x1300000000000000000000000000000000#136) ∧
  (decode 0x1400000000000000000000000000000000#136 = .ok .free ∧
    encode .free = 0x1400000000000000000000000000000000#136) ∧
  decode 0x0000000000000000000000000000000000#136 = .error (.illegalOpcode 0x00#8) ∧
  (∀ a b : Word, decode (0x15#8 ++ a ++ b) = .error (.illegalOpcode 0x15#8) ∧
    decode (0xFF#8 ++ a ++ b) = .error (.illegalOpcode 0xFF#8))

/-- 30_encoding R64: the operand bits a command does not use are ignored, the encoder writes zeros there, and the
decoder accepts any value there. -/
def Obligations.UnusedOperandBitsAreIgnored : Prop :=
  (∀ (a b a' b' : Word) (s : State),
    perform (0x01#8 ++ a ++ b) s = perform (0x01#8 ++ a' ++ b') s ∧
    perform (0x03#8 ++ a ++ b) s = perform (0x03#8 ++ a' ++ b') s ∧
    perform (0x13#8 ++ a ++ b) s = perform (0x13#8 ++ a' ++ b') s ∧
    perform (0x14#8 ++ a ++ b) s = perform (0x14#8 ++ a' ++ b') s ∧
    perform (0x11#8 ++ a ++ b) s = perform (0x11#8 ++ a ++ b') s ∧
    perform (0x12#8 ++ a ++ b) s = perform (0x12#8 ++ a ++ b') s ∧
    (a.toNat % 256 = a'.toNat % 256 → perform (0x02#8 ++ a ++ b) s = perform (0x02#8 ++ a' ++ b') s)) ∧
  (∀ i : Instr, encode i &&& ~~~i.opcode.usedBits = 0) ∧
  (∀ (o : Opcode) (a b : Word), ∃ i : Instr, decode (o.code ++ a ++ b) = .ok i ∧ i.opcode = o)

/-- 30_encoding R65: a word whose opcode is unassigned is accepted like any other, changes no state and is answered
`(IllegalCommand, 0)`; there are 248 such opcodes; the next command is performed as if it had not been sent. -/
def Obligations.IllegalOpcodeIsAnsweredAndChangesNothing : Prop :=
  (∀ (op : Byte) (a b : Word) (s : State),
    op ∉ [0x01#8, 0x02#8, 0x03#8, 0x10#8, 0x11#8, 0x12#8, 0x13#8, 0x14#8] →
      perform (op ++ a ++ b) s =
        .next { s with rspPort := some { status := .illegalCommand, value := 0#64 } } ∧
      ∀ w s', perform (op ++ a ++ b) s = .next s' → perform w s' = perform w s) ∧
  (∀ (w : CommandWord) (s : State), s.rst = false → s.rspPort = none → s.cmdPort = some w →
    (portTurn s).1 = some w) ∧
  ((List.range 256).filter fun n => Opcode.ofCode (BitVec.ofNat 8 n) = none).length = 248

/-- 30_encoding R61: the response word's fields, and `VALUE = 0` in every response that is not `OK`. -/
def Obligations.ResponseWordAndErrorValue : Prop :=
  (∀ r : Response, r.word.toNat / 2 ^ 64 = r.status.code.toNat ∧ r.word.toNat % 2 ^ 64 = r.value.toNat) ∧
  (∀ st : Status, st.code = 0x00#8 ↔ st = .ok) ∧
  (∀ (w : CommandWord) (s s' : State) (r : Response), perform w s = .next s' → s'.rspPort = some r →
    r.status ≠ .ok → r.value = 0#64)

/-- The assembler (30_encoding R68, R69) on the spec's own lines: those of R73 give the words R73 gives, an operand may
be decimal, signed, `0x…` or a character, `;` starts a comment, `FNV1` expands, and an operand out of range is refused. -/
def Obligations.AssemblerReadsTheSpecsLines : Prop :=
  assemble ["HINIT", "HBYTE   'h'", "HGET", "NEW 10000, 10", "NEW -1, 10", "ADD 0x7B495389BDBDD4C7   ; hello", "",
      "PRESENT 0x8C06877B6C117D99", "COUNT", "FREE"] =
    some [0x0100000000000000000000000000000000#136, 0x0200000000000000680000000000000000#136,
      0x0300000000000000000000000000000000#136, 0x100000000000002710000000000000000A#136,
      0x10FFFFFFFFFFFFFFFF000000000000000A#136, 0x117B495389BDBDD4C70000000000000000#136,
      0x128C06877B6C117D990000000000000000#136, 0x1300000000000000000000000000000000#136,
      0x1400000000000000000000000000000000#136] ∧
  assembleLine "NEW 0x8000000000000000, 0x7FFFFFFFFFFFFFFF" = some [.new (-9223372036854775808) 9223372036854775807] ∧
  assembleLine "FNV1 \"\"" = some [.hinit, .hget] ∧
  assembleLine "FNV1 \"hé\"" = some [.hinit, .hbyte 0x68#8, .hbyte 0xC3#8, .hbyte 0xA9#8, .hget] ∧
  assembleLine "FNV1 104, 0x69" = some [.hinit, .hbyte 0x68#8, .hbyte 0x69#8, .hget] ∧
  assembleLine "HBYTE 256" = none ∧ assembleLine "NEW 9223372036854775808, 1" = none ∧
  assembleLine "ADD -1" = none ∧ assembleLine "add 1" = none

/-! ### Steps, ports and reset -/

/-- One step performs the word presented, legal or illegal, when no response waits and `rst = 0`; and
`State.withFetchWord` presents the word it is given. -/
def Obligations.StepPerformsThePresentedWord : Prop :=
  (∀ (s : State) (w : CommandWord) (i : Instr), s.rst = false → s.rspPort = none → s.cmdPort = some w →
    decode w = .ok i → step s = exec i { s with cmdPort := none }) ∧
  (∀ (s : State) (w : CommandWord) (e : DecodeError), s.rst = false → s.rspPort = none → s.cmdPort = some w →
    decode w = .error e →
    step s = .next { s with cmdPort := none, rspPort := some { status := .illegalCommand, value := 0#64 } }) ∧
  (∀ (s : State) (nbits w : Nat) (i : Instr), decodeTableWord nbits w = some i →
    step (s.withFetchWord nbits w) =
      exec i { s with taken := s.taken ++ s.rspPort.toList, rspPort := none, rst := false, cmdPort := none })

/-- The handshakes (30_encoding R71): a response that waits is held unchanged until it is taken or reset drops it, and
while it waits no word is accepted; a step that begins with no response waiting takes none, and it either presents
none or has accepted exactly the presented word and presents its one response. That an accepted word leaves the port and
that a possible handshake comes before the host's next pin change are the model's choice (log entry 4). -/
def Obligations.OneResponsePerAcceptedCommand : Prop :=
  (∀ (s s' : State) (r : Response), s.rst = false → s.rspPort = some r → step s = .next s' →
    (s'.rspPort = some r ∧ s'.taken = s.taken ∧ s'.acc = s.acc ∧ s'.filter = s.filter ∧ s.rspReady = false) ∨
    (s'.rspPort = none ∧ s'.taken = s.taken ++ [r] ∧ s'.acc = s.acc ∧ s'.filter = s.filter ∧
      s'.cmdPort = s.cmdPort ∧ s.rspReady = true) ∨
    (s'.rspPort = none ∧ s'.taken = s.taken ∧ s'.rst = true)) ∧
  (∀ s s' : State, s.rspPort = none → step s = .next s' →
    s'.taken = s.taken ∧
    ((s'.rspPort = none ∧ (s.rst = true ∨ s.cmdPort = none)) ∨
      ∃ w r, s.rst = false ∧ s.cmdPort = some w ∧ s'.cmdPort = none ∧ s'.rspPort = some r ∧
        perform w { s with cmdPort := none } = .next s'))

/-- 30_encoding R71 and 70_reset R164 over a whole history: a host that is always ready to take responses and presents
the words `ws` one after the other is answered exactly the responses the commands give one after the other, one per
word and in order, and the block ends as they leave it. -/
def Obligations.PortsDeliverTheHistory : Prop :=
  ∀ (ws : List CommandWord) (rest : List HostAction) (s : State), s.Inv → s.rst = false → s.rspPort = none →
    s.cmdPort = none → s.rspReady = true → s.host = ws.map (fun w => .driveCommand (some w)) ++ rest →
    ∃ s' t, stepN (3 * ws.length) s = .next s' ∧ performAll ws s = .next t ∧
      s'.acc = t.acc ∧ s'.filter = t.filter ∧ s'.host = rest ∧ s'.rspPort = none ∧ s'.cmdPort = none ∧
      s'.taken = s.taken ++ responses ws s ∧ (responses ws s).length = ws.length

/-- With nothing to take, nothing to accept and nothing the host will do, a step changes nothing: the block is idle
and never halts (70_reset R165). -/
def Obligations.IdleStepChangesNothing : Prop :=
  ∀ s : State, s.host = [] → (s.rst = true ∨ (s.cmdPort = none ∧ s.rspPort = none) ∨
    (s.rspPort.isSome ∧ s.rspReady = false)) → step s = .next s

/-- 10_state R32: the reset state. -/
def Obligations.ResetState : Prop :=
  State.reset.acc = 0xCBF29CE484222325#64 ∧ State.reset.valid = false ∧ State.reset.filter = none ∧
    State.reset.rspPort = none ∧ State.reset.rst = false

/-- 70_reset R160: while `rst = 1` nothing is accepted and nothing presented; at the level 1, and when the level
returns to 0, the block is in the reset state; the host may do this between any two commands. That the block is in the
reset state as soon as the level is 1 is the model's reading (log entry 17), and that the host's change comes only when no
handshake is possible is its choice (log entry 4). -/
def Obligations.ResetInput : Prop :=
  (∀ s : State, s.rst = true →
    s.cmdReady = false ∧ s.rspValid = false ∧ s.accepted = none ∧ s.rspData = none) ∧
  (∀ (s : State) (level : Bool), level = true ∨ s.rst = true →
    s.driveRst level =
      { s with rst := level, acc := 0xCBF29CE484222325#64, filter := none, rspPort := none }) ∧
  (∀ (s : State) (level : Bool) (rest : List HostAction), s.host = .driveRst level :: rest →
    level = true ∨ s.rst = true → s.accepted = none → (s.rspPort = none ∨ s.rspReady = false ∨ s.rst = true) →
    step s = .next { s with host := rest, rst := level, acc := 0xCBF29CE484222325#64, filter := none,
                            rspPort := none })

/-- 70_reset R162: a command whose response reset cuts off leaves the reset state and delivers no response, the same
state a reset in place of the command leaves. The two steps and the port the accepted word leaves are the model's choice
(log entry 4), the state while `rst = 1` is its reading (log entry 17). -/
def Obligations.ResetCutsOffAResponse : Prop :=
  ∀ (s : State) (w : CommandWord) (rest : List HostAction), s.BlockWf → s.rst = false → s.rspPort = none →
    s.cmdPort = some w → s.rspReady = false → s.host = .driveRst true :: rest →
    stepN 2 s = .next { s with cmdPort := none, host := rest, rst := true, acc := 0xCBF29CE484222325#64,
                               filter := none } ∧
    stepN 2 s = step { s with cmdPort := none }

/-! ### Invariants -/

/-- 43_properties R134, as an invariant every step keeps; and no step from a state that satisfies it faults or
refuses. -/
def Obligations.EveryStepKeepsTheInvariant : Prop :=
  ∀ s : State, s.Inv → ∃ s', step s = .next s' ∧ s'.Inv

/-- The reset state satisfies the invariant, whatever legal value the parameter `BITS_MAX` has. -/
def Obligations.ResetSatisfiesTheInvariant : Prop :=
  State.reset.Inv ∧ ∀ c : Config, c.wf → State.Inv { State.reset with config := c }

/-- 43_properties R134 over histories: performing any command words keeps the block well formed and completes. -/
def Obligations.HistoriesKeepTheBlockWellFormed : Prop :=
  ∀ (ws : List CommandWord) (s : State), s.BlockWf → ∃ s', performAll ws s = .next s' ∧ s'.BlockWf

/-- 10_state R34 and R31: what each instruction leaves unchanged. No meaning touches the parameter, the pins, the host
or the responses taken (log entries 2, 4, 5: the model's own fields); the hash commands write at most `ACC`, the filter
commands never do; `HGET`, `PRESENT` and `COUNT` write no state; `NEW` leaves an instance as it is; `ADD` keeps `VALID`,
`CAP`, `K` and every bit outside the derived addresses; a response is always presented. -/
def Obligations.FrameOfEveryInstruction : Prop :=
  ∀ (i : Instr) (s s' : State), exec i s = .next s' →
    (s'.config = s.config ∧ s'.rst = s.rst ∧ s'.cmdPort = s.cmdPort ∧ s'.rspReady = s.rspReady ∧
      s'.host = s.host ∧ s'.taken = s.taken ∧ s'.rspPort.isSome) ∧
    (i.opcode ∉ [Opcode.hinit, Opcode.hbyte] → s'.acc = s.acc) ∧
    (i.opcode ∉ [Opcode.new, Opcode.add, Opcode.free] → s'.filter = s.filter) ∧
    (i.opcode = .new → s.filter.isSome → s'.filter = s.filter) ∧
    (i.opcode = .add → s'.filter.isSome = s.filter.isSome) ∧
    (∀ (h : Word) (f f' : Filter), i = .add h → s.filter = some f → s'.filter = some f' →
      f'.cap = f.cap ∧ f'.k = f.k ∧ ∀ j, j ∉ f.addresses h → Memory.read f'.bits j = Memory.read f.bits j)

/-- 43_properties R124 and R125, over steps: the parameters of an instance never change and a bit that is 1 stays 1,
until a `FREE` is accepted or reset is driven. -/
def Obligations.InstanceIsImmutableAndBitsMonotone : Prop :=
  ∀ (s s' : State) (f : Filter), s.filter = some f → step s = .next s' →
    (∃ f', s'.filter = some f' ∧ f'.cap = f.cap ∧ f'.k = f.k ∧ f'.m = f.m ∧
      ∀ j, Memory.read f.bits j = true → Memory.read f'.bits j = true) ∨
    (s'.filter = none ∧ ∃ w, s.cmdPort = some w ∧ decode w = .ok .free) ∨
    (s'.filter = none ∧ (s.rst = true ∨ s'.rst = true))

/-- 43_properties R126: `PRESENT`, `COUNT`, `HGET`, illegal words and every command that ends in an error leave the
whole state unchanged but for the response, and repeating the command gives the same response. -/
def Obligations.PureReadsAndErrorsChangeNothing : Prop :=
  ∀ (w : CommandWord) (s s' : State) (r : Response), perform w s = .next s' → s'.rspPort = some r →
    ((∃ h, decode w = .ok (.present h)) ∨ decode w = .ok .count ∨ decode w = .ok .hget ∨
      (∃ e, decode w = .error e) ∨ r.status ≠ .ok) →
    s' = { s with rspPort := some r } ∧ perform w s' = .next s'

/-! ### The hash family -/

/-- 40_hash R81. -/
def Obligations.HinitResult : Prop :=
  (∀ s : State, exec .hinit s =
    .next { s with acc := 0xCBF29CE484222325#64,
                   rspPort := some { status := .ok, value := 0xCBF29CE484222325#64 } }) ∧
  (∀ (a b : Word) (s : State), perform (0x01#8 ++ a ++ b) s = exec .hinit s) ∧
  (∀ s s' : State, exec .hinit s = .next s' → exec .hinit s' = .next s')

/-- 40_hash R82. -/
def Obligations.HbyteResult : Prop :=
  (∀ (byte : Byte) (s : State),
    let product := BitVec.ofNat 64 (s.acc.toNat * 1099511628211)
    exec (.hbyte byte) s =
      .next { s with acc := product ^^^ BitVec.ofNat 64 byte.toNat,
                     rspPort := some { status := .ok, value := product ^^^ BitVec.ofNat 64 byte.toNat } }) ∧
  (∀ (a b : Word) (s : State),
    perform (0x02#8 ++ a ++ b) s = exec (.hbyte (BitVec.ofNat 8 (a.toNat % 256))) s)

/-- 40_hash R83. -/
def Obligations.HgetResult : Prop :=
  (∀ s : State, exec .hget s = .next { s with rspPort := some { status := .ok, value := s.acc } }) ∧
  (∀ (a b : Word) (s : State), perform (0x03#8 ++ a ++ b) s = exec .hget s)

/-- 40_hash R88. -/
def Obligations.FnvRecurrence : Prop :=
  fnv1 [] = 14695981039346656037#64 ∧
    ∀ (bs : List Byte) (b : Byte),
      fnv1 (bs ++ [b]) = BitVec.ofNat 64 ((fnv1 bs).toNat * 1099511628211) ^^^ BitVec.ofNat 64 b.toNat

/-- 43_properties R129: the known vectors, of the empty input, of "a" and of "foobar". -/
def Obligations.FnvKnownVectors : Prop :=
  fnv1 [] = 0xCBF29CE484222325#64 ∧ fnv1 [0x61#8] = 0xAF63BD4C8601B7BE#64 ∧
    fnv1 [0x66#8, 0x6F#8, 0x6F#8, 0x62#8, 0x61#8, 0x72#8] = 0x340D8765A4DDA9C2#64

/-- 40_hash R84, the stream law: after `HINIT` and any words without another `HINIT`, the accumulator is `fnv1` of the
bytes of the `HBYTE`s among them, in order; every `HBYTE` responds `fnv1` of the bytes so far; `HGET` responds it. -/
def Obligations.StreamLaw : Prop :=
  ∀ (w₀ : CommandWord) (ws : List CommandWord) (s : State), s.BlockWf → decode w₀ = .ok .hinit →
    (∀ w ∈ ws, decode w ≠ .ok .hinit) →
    ∃ s', performAll (w₀ :: ws) s = .next s' ∧ s'.acc = fnv1 (hashBytes ws) ∧
      exec .hget s' =
        .next { s' with rspPort := some { status := .ok, value := fnv1 (hashBytes ws) } } ∧
      ∀ b : Byte, exec (.hbyte b) s' =
        .next { s' with acc := fnv1 (hashBytes ws ++ [b]),
                        rspPort := some { status := .ok, value := fnv1 (hashBytes ws ++ [b]) } }

/-- 40_hash R85: words that are no hash commands neither write nor read `ACC`, hash commands neither write nor read the
filter, and a step changes `ACC` only by accepting `HINIT` or `HBYTE` or by reset. -/
def Obligations.HashAndFilterAreIndependent : Prop :=
  (∀ (w : CommandWord) (s s' : State), notHashCommand w = true → perform w s = .next s' →
    s'.acc = s.acc ∧ ∀ a, perform w { s with acc := a } = .next { s' with acc := a }) ∧
  (∀ (w : CommandWord) (s s' : State), notHashCommand w = false → perform w s = .next s' →
    s'.filter = s.filter ∧ ∀ f, perform w { s with filter := f } = .next { s' with filter := f }) ∧
  (∀ s s' : State, step s = .next s' → s'.acc ≠ s.acc →
    (∃ w, s.cmdPort = some w ∧ (decode w = .ok .hinit ∨ ∃ b, decode w = .ok (.hbyte b))) ∨
    s.rst = true ∨ s'.rst = true)

/-- 43_properties R132: the value an `FNV1` ends with is a function of the byte sequence alone. Two blocks in any
states, with any other words interleaved, whose `HBYTE`s carry the same bytes, answer `HGET` alike. -/
def Obligations.HashIsAFunctionOfTheBytes : Prop :=
  ∀ (u v : CommandWord) (us vs : List CommandWord) (s t : State), s.BlockWf → t.BlockWf →
    decode u = .ok .hinit → decode v = .ok .hinit →
    (∀ w ∈ us, decode w ≠ .ok .hinit) → (∀ w ∈ vs, decode w ≠ .ok .hinit) → hashBytes us = hashBytes vs →
    ∃ s' t' x, performAll (u :: us) s = .next s' ∧ performAll (v :: vs) t = .next t' ∧
      exec .hget s' = .next { s' with rspPort := some { status := .ok, value := x } } ∧
      exec .hget t' = .next { t' with rspPort := some { status := .ok, value := x } }

/-- The pseudo-instruction `FNV1` (30_encoding R69): its `n + 2` commands, performed from any well-formed block, end
with a response of `fnv1` of the bytes and leave the filter alone. -/
def Obligations.PseudoInstructionComputesFnv : Prop :=
  ∀ (bs : List Byte) (s : State),
    expandFnv1 bs = [.hinit] ++ bs.map (fun b => .hbyte b) ++ [.hget] ∧
    (expandFnv1 bs).length = bs.length + 2 ∧
    performAll ((expandFnv1 bs).map encode) s =
      .next { s with acc := fnv1 bs, rspPort := some { status := .ok, value := fnv1 bs } }

/-! ### The index derivation -/

/-- 41_index R91: the two seeds; `h2` is zero only for `h = 0`. -/
def Obligations.SeedsOfAHash : Prop :=
  ∀ h : Word, seed1 h = h ∧
    (seed2 h).toNat = h.toNat % 2 ^ 32 * 2 ^ 32 + h.toNat / 2 ^ 32 ∧
    seed2 h = h.extractLsb' 0 32 ++ h.extractLsb' 32 32 ∧ (seed2 h = 0#64 ↔ h = 0#64)

/-- 41_index R92: the index of a round, as integer arithmetic modulo `2^64` and then modulo `m`; the wrap can be
observed; round 0 does not depend on it. -/
def Obligations.IndexFormula : Prop :=
  (∀ (h : Word) (i m : Nat), 1 ≤ m →
    index h i m = (h.toNat + i * (h.toNat % 2 ^ 32 * 2 ^ 32 + h.toNat / 2 ^ 32)) % 2 ^ 64 % m ∧
      index h i m < m ∧ index h 0 m = h.toNat % m) ∧
  indices 0xFFFFFFFFFFFFFFFF#64 4 10000 = [1615, 1614, 1613, 1612]

/-- 41_index R93: the incremental form gives the same sums and indices. -/
def Obligations.IncrementalForm : Prop :=
  ∀ (h : Word) (i m : Nat), roundSum h 0 = seed1 h ∧ roundSum h (i + 1) = roundSum h i + seed2 h ∧
    index h i m = ((fun g => g + seed2 h)^[i] (seed1 h)).toNat % m

/-- 41_index R94: exactly `k` indices, each below `m`, and the first `k'` of them are the indices for `k'`. -/
def Obligations.IndicesRangeAndFirstRounds : Prop :=
  ∀ (h : Word) (k m : Nat), 1 ≤ k → 1 ≤ m →
    (indices h k m).length = k ∧ (∀ j ∈ indices h k m, j < m) ∧
    ∀ k' ≤ k, (indices h k m).take k' = indices h k' m

/-- 41_index R95: the indices need not be distinct; between 1 and `min(k, m)` of them are. -/
def Obligations.IndicesMayRepeat : Prop :=
  (∀ (h : Word) (k m : Nat), 1 ≤ k → 1 ≤ m →
    1 ≤ (indices h k m).dedup.length ∧ (indices h k m).dedup.length ≤ min k m) ∧
  (∀ k m, indices 0#64 k m = List.replicate k 0) ∧ (∀ (h : Word) (k : Nat), indices h k 1 = List.replicate k 0) ∧
  indices 0x0000000000000007#64 3 8 = [7, 7, 7] ∧ indices 0x0000000400000001#64 3 8 = [1, 5, 1]

/-- 41_index R97: the shortcut when `m` divides `2^32`, and the low bits of `g_i` when `m` is a power of two. -/
def Obligations.PowerOfTwoIndex : Prop :=
  (∀ (h : Word) (i m : Nat), m ∣ 2 ^ 32 → index h i m = (h.toNat % 2 ^ 32 + i * (h.toNat / 2 ^ 32)) % m) ∧
  (∀ (h : Word) (i p : Nat), p ≤ 62 → index h i (2 ^ p) = ((roundSum h i).extractLsb' 0 p).toNat)

/-- 41_index R98, the worked example: the sums and the indices of the hash of "hello". -/
def Obligations.WorkedIndices : Prop :=
  seed2 0x7B495389BDBDD4C7#64 = 0xBDBDD4C77B495389#64 ∧
  (List.range 10).map (roundSum 0x7B495389BDBDD4C7#64) =
    [0x7B495389BDBDD4C7#64, 0x3907285139072850#64, 0xF6C4FD18B4507BD9#64, 0xB482D1E02F99CF62#64,
     0x7240A6A7AAE322EB#64, 0x2FFE7B6F262C7674#64, 0xEDBC5036A175C9FD#64, 0xAB7A24FE1CBF1D86#64,
     0x6937F9C59808710F#64, 0x26F5CE8D1351C498#64] ∧
  indices 0x7B495389BDBDD4C7#64 10 10000 = [3575, 9344, 6729, 2498, 8267, 4036, 1421, 7190, 2959, 8728]

/-! ### The filter family -/

/-- 42_filter R101: the four outcomes of `NEW`, in the order of its checks; a new instance has every bit 0; a refused
`NEW` leaves everything as it was. -/
def Obligations.NewResult : Prop :=
  (∀ (n k : Int) (s : State),
    (n ≤ 0 ∨ k ≤ 0 → exec (.new n k) s =
      .next { s with rspPort := some { status := .invalidArgument, value := 0#64 } }) ∧
    (0 < n → 0 < k → s.filter ≠ none → exec (.new n k) s =
      .next { s with rspPort := some { status := .alreadyConstructed, value := 0#64 } }) ∧
    (0 < n → 0 < k → s.filter = none → (s.config.bitsMax : Int) < n → exec (.new n k) s =
      .next { s with rspPort := some { status := .capacityExceeded, value := 0#64 } }) ∧
    (0 < n → 0 < k → s.filter = none → n ≤ s.config.bitsMax → ∃ f : Filter,
      (f.cap : Int) = n ∧ (f.k : Int) = k ∧ (f.m : Int) = n ∧ (∀ j < f.m, f.memRead j = some false) ∧
      exec (.new n k) s = .next { s with filter := some f,
                                         rspPort := some { status := .ok, value := BitVec.ofInt 64 n } })) ∧
  (∀ (a b : Word) (s : State), perform (0x10#8 ++ a ++ b) s = exec (.new (sint64 a) (sint64 b)) s)

/-- 42_filter R102: `ADD` without an instance; with one it sets exactly the bits at the derived indices, reads every
other bit as before and leaves the rest alone; a second `ADD` of the same hash changes nothing; at most `min(K, M)` bits
change; the order of the writes does not matter; the example. -/
def Obligations.AddResult : Prop :=
  (∀ (h : Word) (s : State), s.filter = none →
    exec (.add h) s = .next { s with rspPort := some { status := .notConstructed, value := 0#64 } }) ∧
  (∀ (h : Word) (s : State) (f : Filter), s.filter = some f → 1 ≤ f.m →
    ∃ b : Memory,
      exec (.add h) s = .next { s with filter := some { f with bits := b },
                                       rspPort := some { status := .ok, value := 0#64 } } ∧
      (∀ j < f.m, Filter.memRead { f with bits := b } j =
        some (Memory.read f.bits j || (List.range f.k).any fun i => decide (index h i f.m = j)))) ∧
  (∀ (h : Word) (s s' : State) (f : Filter), s.filter = some f → f.wf s.config → exec (.add h) s = .next s' →
    exec (.add h) s' = .next s' ∧
    (∃ f', s'.filter = some f' ∧
      ((List.range f.m).filter fun j => f'.memRead j != f.memRead j).length ≤ min f.k f.m) ∧
    ∀ is : List Nat, is.Perm (indices h f.k f.m) → (f.setAll is).map some = some s'.filter) ∧
  (∀ (a b : Word) (s : State), perform (0x11#8 ++ a ++ b) s = exec (.add a) s) ∧
  indices 0x0000000200000001#64 3 8 = [1, 3, 5]

/-- 42_filter R103: `PRESENT` without an instance; with one it answers 1 exactly when the bits at all derived indices
are 1 and changes no state; on a fresh filter it answers 0. -/
def Obligations.PresentResult : Prop :=
  (∀ (h : Word) (s : State), s.filter = none →
    exec (.present h) s = .next { s with rspPort := some { status := .notConstructed, value := 0#64 } }) ∧
  (∀ (h : Word) (s : State) (f : Filter), s.filter = some f → 1 ≤ f.m →
    ∀ v : Word, (v = if ∀ i < f.k, f.memRead (index h i f.m) = some true then 1#64 else 0#64) →
      exec (.present h) s = .next { s with rspPort := some { status := .ok, value := v } }) ∧
  (∀ (h : Word) (s : State) (f : Filter), s.filter = some f → 1 ≤ f.m → 1 ≤ f.k →
    (∀ j < f.m, f.memRead j = some false) →
    exec (.present h) s = .next { s with rspPort := some { status := .ok, value := 0#64 } }) ∧
  (∀ (a b : Word) (s : State), perform (0x12#8 ++ a ++ b) s = exec (.present a) s)

/-- 42_filter R104: `COUNT` without an instance; with one it answers how many `j` in `0 … M-1` have `BITS[j] = 1`, at
most `M`, and changes no state; on a fresh filter it answers 0. -/
def Obligations.CountResult : Prop :=
  (∀ s : State, s.filter = none →
    exec .count s = .next { s with rspPort := some { status := .notConstructed, value := 0#64 } }) ∧
  (∀ (s : State) (f : Filter), s.filter = some f → f.wf s.config → s.config.wf →
    ∃ v : Word, v.toNat = ((List.range f.m).filter fun j => f.memRead j == some true).length ∧ v.toNat ≤ f.m ∧
      ((∀ j < f.m, f.memRead j = some false) → v = 0#64) ∧
      exec .count s = .next { s with rspPort := some { status := .ok, value := v } }) ∧
  (∀ (a b : Word) (s : State), perform (0x13#8 ++ a ++ b) s = exec .count s)

/-- 42_filter R105: `FREE` without an instance; with one it ends the instance, so that the four commands answer
`NotConstructed` after it and a `NEW` that fits starts from all-zero bits; `ACC` is untouched. -/
def Obligations.FreeResult : Prop :=
  (∀ s : State, s.filter = none →
    exec .free s = .next { s with rspPort := some { status := .notConstructed, value := 0#64 } }) ∧
  (∀ s : State, s.filter ≠ none → ∃ s',
    s' = { s with filter := none, rspPort := some { status := .ok, value := 0#64 } } ∧ exec .free s = .next s' ∧
    (∀ i : Instr, i.opcode ∈ [Opcode.add, Opcode.present, Opcode.count, Opcode.free] →
      exec i s' = .next { s' with rspPort := some { status := .notConstructed, value := 0#64 } }) ∧
    ∀ n k : Int, 0 < n → 0 < k → n ≤ s.config.bitsMax → ∃ f : Filter, (∀ j < f.m, f.memRead j = some false) ∧
      exec (.new n k) s' = .next { s' with filter := some f,
                                           rspPort := some { status := .ok, value := BitVec.ofInt 64 n } }) ∧
  (∀ (a b : Word) (s : State), perform (0x14#8 ++ a ++ b) s = exec .free s)

/-- 42_filter R106: a filter whose bits are all 1 still accepts every `ADD`, which changes nothing, and answers 1 to
every `PRESENT`. -/
def Obligations.FullFilter : Prop :=
  ∀ (h : Word) (s : State) (f : Filter), s.filter = some f → f.wf s.config → (∀ j < f.m, f.memRead j = some true) →
    exec (.add h) s = .next { s with rspPort := some { status := .ok, value := 0#64 } } ∧
    exec (.present h) s = .next { s with rspPort := some { status := .ok, value := 1#64 } }

/-- 43_properties R127: `ADD` is idempotent and commutative, and its bits are the union of the bits before and the index
sets, which is the OR of the arrays each `ADD` alone gives. -/
def Obligations.AddIdempotentAndCommutative : Prop :=
  ∀ (h h' : Word) (s : State), s.BlockWf → s.filter ≠ none →
    ∃ s₁ s₂ t, exec (.add h) s = .next s₁ ∧ exec (.add h) s₁ = .next s₁ ∧ exec (.add h') s = .next s₂ ∧
      exec (.add h') s₁ = .next t ∧ exec (.add h) s₂ = .next t ∧
      ∀ f f₁ f₂ g, s.filter = some f → s₁.filter = some f₁ → s₂.filter = some f₂ → t.filter = some g →
        ∀ j, Memory.read g.bits j = (Memory.read f₁.bits j || Memory.read f₂.bits j) ∧
          (Memory.read g.bits j = true ↔
            Memory.read f.bits j = true ∨ j ∈ indices h f.k f.m ∨ j ∈ indices h' f.k f.m)

/-- 43_properties R122: a successful `ADD` raises the count by the number of distinct derived indices whose bit was 0,
so by at most `min(K, M)` and by 0 when all were 1; no other command on the same instance changes the count. -/
def Obligations.CountIncrease : Prop :=
  (∀ (h : Word) (s : State) (f : Filter), s.filter = some f → f.wf s.config →
    ∃ s' f', exec (.add h) s = .next s' ∧ s'.filter = some f' ∧
      f'.popcount = f.popcount + ((indices h f.k f.m).dedup.filter fun j => !Memory.read f.bits j).length ∧
      f.popcount ≤ f'.popcount ∧ f'.popcount ≤ f.popcount + min f.k f.m ∧
      ((∀ i < f.k, Memory.read f.bits (index h i f.m) = true) → f'.popcount = f.popcount)) ∧
  (∀ (w : CommandWord) (s s' : State) (f f' : Filter), s.filter = some f → s'.filter = some f' →
    isAdd w = false → perform w s = .next s' → f'.popcount = f.popcount)

/-- 43_properties R123: on an instance that `NEW` made and no `FREE` ended, after `t` `ADD`s among any other words,
`COUNT` answers some `c <= min(M, t * K)`, and `c >= 1` if `t >= 1`. -/
def Obligations.BoundedCount : Prop :=
  ∀ (ws : List CommandWord) (s : State) (n k : Int), s.BlockWf → s.filter = none → 0 < n → 0 < k → k < 2 ^ 63 →
    n ≤ s.config.bitsMax → (∀ w ∈ ws, decode w ≠ .ok .free) →
    ∃ s₁ s₂ c, exec (.new n k) s = .next s₁ ∧ performAll ws s₁ = .next s₂ ∧
      exec .count s₂ = .next { s₂ with rspPort := some { status := .ok, value := BitVec.ofNat 64 c } } ∧
      c ≤ min n.toNat ((ws.filter isAdd).length * k.toNat) ∧ (1 ≤ (ws.filter isAdd).length → 1 ≤ c)

/-- 43_properties R120, no false negatives: once `ADD h` has been performed on an instance, `PRESENT h` answers 1,
whatever words but `FREE` come between. -/
def Obligations.NoFalseNegatives : Prop :=
  ∀ (h : Word) (ws : List CommandWord) (s : State), s.BlockWf → s.filter ≠ none →
    (∀ w ∈ ws, decode w ≠ .ok .free) →
    ∃ s₁ s₂, exec (.add h) s = .next s₁ ∧ performAll ws s₁ = .next s₂ ∧
      exec (.present h) s₂ = .next { s₂ with rspPort := some { status := .ok, value := 1#64 } }

/-- 43_properties R121: two blocks with equal instances that are sent the same words other than hash commands give the
same responses and end with equal instances; with unequal `BITS_MAX`, as long as no `FREE` ends the instance. -/
def Obligations.EqualInstancesAnswerAlike : Prop :=
  ∀ (ws : List CommandWord) (s t : State), s.filter = t.filter → (∀ w ∈ ws, notHashCommand w = true) →
    (s.config = t.config ∨ (s.filter ≠ none ∧ ∀ w ∈ ws, decode w ≠ .ok .free)) →
    responses ws s = responses ws t ∧
    ∀ s' t', performAll ws s = .next s' → performAll ws t = .next t' → s'.filter = t'.filter

/-- 43_properties R131: a false positive, the spec's own witness: on any block that has room for it, `NEW 8, 3` and two
`ADD`s make `PRESENT` answer 1 to a hash that no word of the history adds; and whenever `PRESENT h` answers 0, no word
performed on the instance was an `ADD h`. -/
def Obligations.FalsePositivesAreLegal : Prop :=
  (∀ s : State, s.filter = none → 8 ≤ s.config.bitsMax →
    ∃ s', performAll
        [encode (.new 8 3), encode (.add 0x0000000200000001#64), encode (.add 0x0000000000000007#64)] s = .next s' ∧
      exec (.present 0x0000000200000005#64) s' =
        .next { s' with rspPort := some { status := .ok, value := 1#64 } }) ∧
  (∀ (ws : List CommandWord) (h : Word) (s s' : State), s.BlockWf → s.filter ≠ none →
    (∀ w ∈ ws, decode w ≠ .ok .free) → performAll ws s = .next s' →
    exec (.present h) s' = .next { s' with rspPort := some { status := .ok, value := 0#64 } } →
    ∀ w ∈ ws, decode w ≠ .ok (.add h))

/-- 43_properties R133: the end-to-end scenario with its pinned numbers. -/
def Obligations.EndToEndScenario : Prop :=
  fnv1 [0x68#8, 0x65#8, 0x6C#8, 0x6C#8, 0x6F#8] = 0x7B495389BDBDD4C7#64 ∧
  fnv1 [0x68#8, 0x69#8] = 0x08326007B4EB2B9C#64 ∧
  fnv1 [0x61#8, 0x6E#8, 0x6F#8, 0x74#8, 0x68#8, 0x65#8, 0x72#8, 0x20#8, 0x73#8, 0x74#8, 0x72#8, 0x69#8, 0x6E#8,
    0x67#8] = 0x1A6225B391C2AC91#64 ∧
  fnv1 [0x6E#8, 0x6F#8, 0x74#8, 0x20#8, 0x70#8, 0x72#8, 0x65#8, 0x73#8, 0x65#8, 0x6E#8, 0x74#8] =
    0x8C06877B6C117D99#64 ∧
  (indices 0x7B495389BDBDD4C7#64 10 10000 ++ indices 0x08326007B4EB2B9C#64 10 10000 ++
    indices 0x1A6225B391C2AC91#64 10 10000).Nodup ∧
  ∀ s : State, s.filter = none → 10000 ≤ s.config.bitsMax →
    (responses
      [encode (.new 10000 10), encode (.add 0x7B495389BDBDD4C7#64), encode (.add 0x08326007B4EB2B9C#64),
       encode (.add 0x1A6225B391C2AC91#64), encode (.present 0x7B495389BDBDD4C7#64),
       encode (.present 0x08326007B4EB2B9C#64), encode (.present 0x1A6225B391C2AC91#64),
       encode (.present 0x8C06877B6C117D99#64), encode .count] s).map (fun r => (r.status, r.value.toNat)) =
      [(.ok, 10000), (.ok, 0), (.ok, 0), (.ok, 0), (.ok, 1), (.ok, 1), (.ok, 1), (.ok, 0), (.ok, 30)]

/-! ### Statuses -/

/-- 60_exceptions R147: exactly one status per command, the first of the listed conditions that holds. -/
def Obligations.StatusPriority : Prop :=
  ∀ (w : CommandWord) (s : State), s.BlockWf → ∃ s' r, perform w s = .next s' ∧ s'.rspPort = some r ∧
    r.status =
      match decode w with
      | .error _ => Status.illegalCommand
      | .ok (.new n k) =>
        if n ≤ 0 ∨ k ≤ 0 then .invalidArgument
        else if s.filter.isSome then .alreadyConstructed
        else if (s.config.bitsMax : Int) < n then .capacityExceeded
        else .ok
      | .ok (.add _) => if s.filter.isSome then .ok else .notConstructed
      | .ok (.present _) => if s.filter.isSome then .ok else .notConstructed
      | .ok .count => if s.filter.isSome then .ok else .notConstructed
      | .ok .free => if s.filter.isSome then .ok else .notConstructed
      | .ok .hinit => .ok
      | .ok (.hbyte _) => .ok
      | .ok .hget => .ok

/-- 60_exceptions R146: a status other than `OK` goes with no state change and `VALUE = 0`, and the next command is
performed exactly as if the failing one had not been sent. -/
def Obligations.ErrorsArePreciseAndNotSticky : Prop :=
  ∀ (w : CommandWord) (s s' : State) (r : Response), perform w s = .next s' → s'.rspPort = some r →
    r.status ≠ .ok →
    s' = { s with rspPort := some { status := r.status, value := 0#64 } } ∧ ∀ w', perform w' s' = perform w' s

/-- 60_exceptions R141 and 43_properties R130: `NEW` answers `InvalidArgument`, in every state and changing nothing,
exactly when an operand is 0 or has its sign bit set. -/
def Obligations.InvalidArgumentExactly : Prop :=
  ∀ (a b : Word) (s : State),
    (perform (0x10#8 ++ a ++ b) s =
        .next { s with rspPort := some { status := .invalidArgument, value := 0#64 } } ↔
      (a = 0#64 ∨ a.getLsbD 63 = true ∨ b = 0#64 ∨ b.getLsbD 63 = true)) ∧
    ((a = 0#64 ∨ a.getLsbD 63 = true ∨ b = 0#64 ∨ b.getLsbD 63 = true) ↔ (sint64 a ≤ 0 ∨ sint64 b ≤ 0))

/-- 60_exceptions R142: without an instance the four commands that need one are answered `NotConstructed` and change
nothing. -/
def Obligations.NotConstructed : Prop :=
  ∀ (i : Instr) (s : State), s.filter = none →
    i.opcode ∈ [Opcode.add, Opcode.present, Opcode.count, Opcode.free] →
    exec i s = .next { s with rspPort := some { status := .notConstructed, value := 0#64 } }

/-- 60_exceptions R151 and 43_properties R128: which commands cannot fail, and exactly when `NEW` does not. -/
def Obligations.CommandsThatCannotFail : Prop :=
  (∀ (i : Instr) (s : State), i.opcode ∈ [Opcode.hinit, Opcode.hbyte, Opcode.hget] →
    ∃ s' v, exec i s = .next s' ∧ s'.rspPort = some { status := .ok, value := v }) ∧
  (∀ (i : Instr) (s : State), s.BlockWf → s.valid = true →
    i.opcode ∈ [Opcode.add, Opcode.present, Opcode.count, Opcode.free] →
    ∃ s' v, exec i s = .next s' ∧ s'.rspPort = some { status := .ok, value := v }) ∧
  (∀ (n k : Int) (s : State), ∃ s' r, exec (.new n k) s = .next s' ∧ s'.rspPort = some r ∧
    (r.status = .ok ↔ 1 ≤ n ∧ 1 ≤ k ∧ s.valid = false ∧ n ≤ s.config.bitsMax))

/-- 60_exceptions R140: the six status codes; the first byte of every response is one of them; which word and which state
each error status comes from; and `VALUE = 0` in every error response. -/
def Obligations.StatusTable : Prop :=
  (Status.ok.code = 0x00#8 ∧ Status.invalidArgument.code = 0x01#8 ∧ Status.notConstructed.code = 0x02#8 ∧
    Status.illegalCommand.code = 0x03#8 ∧ Status.capacityExceeded.code = 0x04#8 ∧
    Status.alreadyConstructed.code = 0x05#8) ∧
  (∀ r : Response, r.word.toNat / 2 ^ 64 ≤ 0x05) ∧
  (∀ (w : CommandWord) (s s' : State) (r : Response), perform w s = .next s' → s'.rspPort = some r →
    match r.status with
    | .ok => ∃ i, decode w = .ok i
    | .invalidArgument => r.value = 0#64 ∧ ∃ n k, decode w = .ok (.new n k) ∧ (n ≤ 0 ∨ k ≤ 0)
    | .notConstructed => r.value = 0#64 ∧ s.filter = none ∧
        ∃ i, decode w = .ok i ∧ i.opcode ∈ [Opcode.add, Opcode.present, Opcode.count, Opcode.free]
    | .illegalCommand => r.value = 0#64 ∧
        opField w ∉ [0x01#8, 0x02#8, 0x03#8, 0x10#8, 0x11#8, 0x12#8, 0x13#8, 0x14#8]
    | .capacityExceeded => r.value = 0#64 ∧ ∃ n k, decode w = .ok (.new n k) ∧ (s.config.bitsMax : Int) < n
    | .alreadyConstructed => r.value = 0#64 ∧ s.filter.isSome ∧ ∃ n k, decode w = .ok (.new n k))
end

