-- ==== Sys2Proof/Laws/Decode.lean ====
section
/-! SUPPORT. The fields of a packed word, the opcode map both ways, and the signed operands both ways. -/

namespace Sys2Proof

@[simp] theorem opField_packCommand (op : Byte) (a b : Word) : opField (packCommand op a b) = op := by
  refine BitVec.eq_of_getElem_eq fun i hi => ?_
  simp only [opField, packCommand, BitVec.getElem_extractLsb', BitVec.getLsbD_append]
  have h1 : ¬ 128 + i < 64 := by omega
  have h2 : ¬ 128 + i - 64 < 64 := by omega
  have h3 : 128 + i - 64 - 64 = i := by omega
  simp [h1, h2, h3, hi]

@[simp] theorem aField_packCommand (op : Byte) (a b : Word) : aField (packCommand op a b) = a := by
  refine BitVec.eq_of_getElem_eq fun i hi => ?_
  simp only [aField, packCommand, BitVec.getElem_extractLsb', BitVec.getLsbD_append]
  have h1 : ¬ 64 + i < 64 := by omega
  have h3 : 64 + i - 64 = i := by omega
  simp [h1, h3, hi]

@[simp] theorem bField_packCommand (op : Byte) (a b : Word) : bField (packCommand op a b) = b := by
  refine BitVec.eq_of_getElem_eq fun i hi => ?_
  simp only [bField, packCommand, BitVec.getElem_extractLsb', BitVec.getLsbD_append]
  simp [hi]

/-- A command word is its three fields. -/
theorem packCommand_fields (w : CommandWord) : packCommand (opField w) (aField w) (bField w) = w := by
  refine BitVec.eq_of_getLsbD_eq fun i hi => ?_
  simp only [packCommand, opField, aField, bField, BitVec.getLsbD_append, BitVec.getLsbD_extractLsb']
  by_cases h1 : i < 64
  · simp [h1]
  · by_cases h2 : i - 64 < 64
    · have : 64 + (i - 64) = i := by omega
      simp [h1, h2, this]
    · have h3 : 128 + (i - 64 - 64) = i := by omega
      have h4 : i - 64 - 64 < 8 := by omega
      simp [h1, h2, h3, h4]

@[simp] theorem Opcode.ofCode_code (o : Opcode) : Opcode.ofCode o.code = some o := by
  cases o <;> decide

theorem Opcode.ofCode_eq_some (c : Byte) (o : Opcode) : Opcode.ofCode c = some o ↔ c = o.code := by
  constructor
  · intro h
    unfold Opcode.ofCode at h
    repeat' split at h
    all_goals simp_all [Opcode.code]
    all_goals (subst h; rfl)
  · rintro rfl
    exact Opcode.ofCode_code o

/-- A word with an assigned opcode decodes to the command of that opcode. -/
theorem decode_of_code {w : CommandWord} {o : Opcode} (h : opField w = o.code) :
    decode w = .ok (instrOf o (aField w) (bField w)) := by
  unfold decode
  rw [h, Opcode.ofCode_code]

@[simp] theorem opcode_instrOf (o : Opcode) (a b : Word) : (instrOf o a b).opcode = o := by
  cases o <;> rfl

/-- Everything a successful decoding says: the opcode is the instruction's, and the instruction is read from the
fields. -/
theorem decode_eq_ok {w : CommandWord} {i : Instr} :
    decode w = .ok i ↔ opField w = i.opcode.code ∧ i = instrOf i.opcode (aField w) (bField w) := by
  constructor
  · intro h
    unfold decode at h
    split at h
    · cases h
    · rename_i o ho
      cases h
      rw [opcode_instrOf]
      exact ⟨(Opcode.ofCode_eq_some _ _).mp ho, rfl⟩
  · rintro ⟨h, hi⟩
    rw [decode_of_code h, ← hi]

theorem inSigned64_iff (v : Int) : inSigned64 v = true ↔ -(2 ^ 63) ≤ v ∧ v < 2 ^ 63 := by
  simp [inSigned64]

theorem sint64_inSigned64 (v : Word) : inSigned64 (sint64 v) = true := by
  have := v.isLt
  rw [inSigned64_iff]
  unfold sint64
  split <;> omega

theorem sint64_ofSint64 {v : Int} (h : inSigned64 v = true) : sint64 (ofSint64 v) = v := by
  rw [inSigned64_iff] at h
  have hv : (ofSint64 v).toNat = (v % 2 ^ 64).toNat := by
    simp only [ofSint64, BitVec.toNat_ofNat]
    omega
  unfold sint64
  rw [hv]
  split <;> omega

theorem ofSint64_sint64 (v : Word) : ofSint64 (sint64 v) = v := by
  have := v.isLt
  apply BitVec.eq_of_toNat_eq
  simp only [ofSint64, BitVec.toNat_ofNat]
  unfold sint64
  split <;> omega

@[simp] theorem byteOperand_setWidth (b : Byte) : byteOperand (b.setWidth 64) = b := by
  refine BitVec.eq_of_getElem_eq fun i hi => ?_
  simp only [byteOperand, BitVec.getElem_extractLsb', Nat.zero_add, BitVec.getLsbD_setWidth]
  have : i < 64 := by omega
  simp [this, BitVec.getLsbD_eq_getElem, hi]

end Sys2Proof
end

