-- ==== Sys2Proof/Laws/Memory.lean ====
section
/-! SUPPORT. The bit array: read after write, the canonical form, and what the primitives over a filter can do. -/

namespace Sys2Proof.Machine

/-! ### Addresses listed after a write -/

@[simp] theorem Memory.mem_setBit (b : Memory) (i j : Nat) : j ∈ Memory.setBit b i ↔ j = i ∨ j ∈ b := by
  induction b with
  | nil => simp [Memory.setBit]
  | cons a b ih =>
    simp only [Memory.setBit]
    split
    · simp
    · split
      · simp_all
      · simp only [List.mem_cons, ih]; tauto

@[simp] theorem Memory.mem_clearBit (b : Memory) (i j : Nat) :
    j ∈ Memory.clearBit b i ↔ j ∈ b ∧ j ≠ i := by
  simp [Memory.clearBit]

@[simp] theorem Memory.read_zeros (i : Nat) : Memory.read Memory.zeros i = false := by
  simp [Memory.read, Memory.zeros]

/-- Read after write: the written address reads the value written, every other reads as before. -/
theorem Memory.read_write (b : Memory) (i j : Nat) (v : Bool) :
    Memory.read (Memory.write b i v) j = if j = i then v else Memory.read b j := by
  cases v <;> by_cases h : j = i <;> simp [Memory.read, Memory.write, h]

/-! ### The canonical form -/

theorem Memory.wf_zeros : Memory.wf Memory.zeros := List.Pairwise.nil

theorem Memory.wf_setBit {b : Memory} (h : Memory.wf b) (i : Nat) : Memory.wf (Memory.setBit b i) := by
  induction b with
  | nil => exact List.pairwise_singleton _ _
  | cons a b ih =>
    obtain ⟨ha, hb⟩ := List.pairwise_cons.mp h
    simp only [Memory.setBit]
    split
    · rename_i hi
      refine List.pairwise_cons.mpr ⟨fun x hx => ?_, h⟩
      rcases List.mem_cons.mp hx with rfl | hx
      · exact hi
      · exact lt_trans hi (ha x hx)
    · split
      · exact h
      · refine List.pairwise_cons.mpr ⟨fun x hx => ?_, ih hb⟩
        rcases (Memory.mem_setBit b i x).mp hx with rfl | hx
        · omega
        · exact ha x hx

theorem Memory.wf_clearBit {b : Memory} (h : Memory.wf b) (i : Nat) : Memory.wf (Memory.clearBit b i) :=
  List.Pairwise.filter _ h

/-- Every write keeps the canonical form. -/
theorem Memory.wf_write {b : Memory} (h : Memory.wf b) (i : Nat) (v : Bool) :
    Memory.wf (Memory.write b i v) := by
  cases v
  · exact Memory.wf_clearBit h i
  · exact Memory.wf_setBit h i

/-- Two canonical memories that read alike are equal. -/
theorem Memory.ext_read {b c : Memory} (hb : Memory.wf b) (hc : Memory.wf c)
    (h : ∀ j, Memory.read b j = Memory.read c j) : b = c := by
  refine List.Perm.eq_of_pairwise (fun x y _ _ h1 h2 => absurd h1 (lt_asymm h2)) hb hc ?_
  refine (List.perm_ext_iff_of_nodup (hb.imp ne_of_lt) (hc.imp ne_of_lt)).mpr fun j => ?_
  have := h j
  simp only [Memory.read, decide_eq_decide] at this
  exact this

/-! ### The primitives over a filter -/

/-- `Filter.memWrite` answers exactly inside the array, and changes `BITS` only. -/
theorem Filter.memWrite_eq_some (f f' : Filter) (i : Nat) (v : Bool) :
    f.memWrite i v = some f' ↔ i < f.m ∧ f' = { f with bits := Memory.write f.bits i v } := by
  unfold Filter.memWrite
  split <;> simp_all [eq_comm]

/-- `Filter.memRead` answers exactly inside the array. -/
theorem Filter.memRead_eq_some (f : Filter) (i : Nat) (v : Bool) :
    f.memRead i = some v ↔ i < f.m ∧ v = Memory.read f.bits i := by
  unfold Filter.memRead
  split <;> simp_all [eq_comm]

/-- Everything `Filter.setAll` can do: on addresses inside the array it answers; `CAP` and `K` stay, the addresses
given are listed after, the others as before, and the canonical form is kept. -/
theorem Filter.setAll_spec (f : Filter) (is : List Nat) (h : ∀ i ∈ is, i < f.m) :
    ∃ b, f.setAll is = some { f with bits := b } ∧ (∀ j, j ∈ b ↔ j ∈ is ∨ j ∈ f.bits) ∧
      (Memory.wf f.bits → Memory.wf b) := by
  induction is generalizing f with
  | nil => exact ⟨f.bits, rfl, by simp, id⟩
  | cons i is ih =>
    have hw : f.memWrite i true = some { f with bits := Memory.write f.bits i true } :=
      (Filter.memWrite_eq_some _ _ _ _).mpr ⟨h i (by simp), rfl⟩
    obtain ⟨b, hb, hm, hwf⟩ := ih { f with bits := Memory.write f.bits i true } fun j hj => h j (by simp [hj])
    refine ⟨b, by simp [Filter.setAll, hw, hb], fun j => ?_, fun hf => hwf (Memory.wf_write hf i true)⟩
    rw [hm]
    simp only [Memory.write, if_true, Memory.mem_setBit, List.mem_cons]
    tauto

/-- Everything an answer of `Filter.setAll` says, whatever the addresses: `CAP` and `K` stay, and exactly the addresses
given are listed besides those listed before. -/
theorem Filter.of_setAll_eq_some {f f' : Filter} {is : List Nat} (h : f.setAll is = some f') :
    f'.cap = f.cap ∧ f'.k = f.k ∧ ∀ j, j ∈ f'.bits ↔ j ∈ is ∨ j ∈ f.bits := by
  induction is generalizing f with
  | nil => cases h; simp
  | cons i is ih =>
    cases hw : f.memWrite i true with
    | none => simp [Filter.setAll, hw] at h
    | some g =>
      obtain ⟨-, rfl⟩ := (Filter.memWrite_eq_some _ _ _ _).mp hw
      obtain ⟨hc, hk, hj⟩ := ih (by simpa [Filter.setAll, hw] using h)
      refine ⟨hc, hk, fun j => ?_⟩
      rw [hj]
      simp only [Memory.write, if_true, Memory.mem_setBit, List.mem_cons]
      tauto

/-- Everything `Filter.testAll` can do on addresses inside the array: the conjunction of the bits. -/
theorem Filter.testAll_spec (f : Filter) (r : Bool) (is : List Nat) (h : ∀ i ∈ is, i < f.m) :
    f.testAll r is = some (r && is.all (Memory.read f.bits)) := by
  induction is generalizing r with
  | nil => simp [Filter.testAll]
  | cons i is ih =>
    have hr : f.memRead i = some (Memory.read f.bits i) :=
      (Filter.memRead_eq_some _ _ _).mpr ⟨h i (by simp), rfl⟩
    simp only [Filter.testAll, hr, ih _ fun j hj => h j (by simp [hj]), List.all_cons, Bool.and_assoc]

end Sys2Proof.Machine
end

