-- ==== Sys2Proof/Laws/Operands.lean ====
section
/-! SUPPORT. The index derivation: how many addresses, and where they lie. -/

namespace Sys2Proof.Machine

@[simp] theorem length_indices (h : Word) (k m : Nat) : (indices h k m).length = k := by
  simp [indices]

theorem mem_indices (h : Word) (k m j : Nat) : j ∈ indices h k m ↔ ∃ i < k, index h i m = j := by
  simp [indices]

theorem index_lt (h : Word) (i : Nat) {m : Nat} (hm : 1 ≤ m) : index h i m < m :=
  Nat.mod_lt _ hm

theorem indices_lt (h : Word) (k : Nat) {m : Nat} (hm : 1 ≤ m) : ∀ j ∈ indices h k m, j < m := by
  intro j hj
  obtain ⟨i, -, rfl⟩ := (mem_indices h k m j).mp hj
  exact index_lt h i hm

theorem Filter.addresses_lt (f : Filter) (h : Word) (hm : 1 ≤ f.m) : ∀ j ∈ f.addresses h, j < f.m :=
  indices_lt h f.k hm

end Sys2Proof.Machine
end

