-- ==== Sys2Proof/Laws/PerInstr.lean ====
section
/-! SUPPORT. Statements about every instruction as syntax, one lemma per constructor. -/

/-- The encoded word of an instruction holds its opcode and its operands, each in its field (30_encoding R60). -/
def Sys2Proof.Laws.EncodedFields.Statement (i : Sys2Proof.Instr) : Prop :=
  Sys2Proof.opField (Sys2Proof.encode i) = i.opcode.code ∧
    Sys2Proof.aField (Sys2Proof.encode i) = i.operandA ∧ Sys2Proof.bField (Sys2Proof.encode i) = i.operandB

namespace Sys2Proof.Laws.EncodedFields

theorem hinit : Statement .hinit := by simp [Statement, encode]

theorem hbyte (byte : Byte) : Statement (.hbyte byte) := by simp [Statement, encode]

theorem hget : Statement .hget := by simp [Statement, encode]

theorem new (n k : Int) : Statement (.new n k) := by simp [Statement, encode]

theorem add (h : Word) : Statement (.add h) := by simp [Statement, encode]

theorem present (h : Word) : Statement (.present h) := by simp [Statement, encode]

theorem count : Statement .count := by simp [Statement, encode]

theorem free : Statement .free := by simp [Statement, encode]

end Sys2Proof.Laws.EncodedFields
end

