-- ==== Sys2Proof/Laws/State.lean ====
section
/-! SUPPORT. One lemma per field of State per named update. -/

namespace Sys2Proof.Machine

variable (s : State)

/-! `State.setAcc` -/

@[simp] theorem State.setAcc_config (v : Word) : (s.setAcc v).config = s.config := rfl
@[simp] theorem State.setAcc_acc (v : Word) : (s.setAcc v).acc = v := rfl
@[simp] theorem State.setAcc_filter (v : Word) : (s.setAcc v).filter = s.filter := rfl
@[simp] theorem State.setAcc_rspPort (v : Word) : (s.setAcc v).rspPort = s.rspPort := rfl
@[simp] theorem State.setAcc_rst (v : Word) : (s.setAcc v).rst = s.rst := rfl
@[simp] theorem State.setAcc_cmdPort (v : Word) : (s.setAcc v).cmdPort = s.cmdPort := rfl
@[simp] theorem State.setAcc_rspReady (v : Word) : (s.setAcc v).rspReady = s.rspReady := rfl
@[simp] theorem State.setAcc_host (v : Word) : (s.setAcc v).host = s.host := rfl
@[simp] theorem State.setAcc_taken (v : Word) : (s.setAcc v).taken = s.taken := rfl

/-! `State.setFilter` -/

@[simp] theorem State.setFilter_config (f : Option Filter) : (s.setFilter f).config = s.config := rfl
@[simp] theorem State.setFilter_acc (f : Option Filter) : (s.setFilter f).acc = s.acc := rfl
@[simp] theorem State.setFilter_filter (f : Option Filter) : (s.setFilter f).filter = f := rfl
@[simp] theorem State.setFilter_rspPort (f : Option Filter) : (s.setFilter f).rspPort = s.rspPort := rfl
@[simp] theorem State.setFilter_rst (f : Option Filter) : (s.setFilter f).rst = s.rst := rfl
@[simp] theorem State.setFilter_cmdPort (f : Option Filter) : (s.setFilter f).cmdPort = s.cmdPort := rfl
@[simp] theorem State.setFilter_rspReady (f : Option Filter) : (s.setFilter f).rspReady = s.rspReady := rfl
@[simp] theorem State.setFilter_host (f : Option Filter) : (s.setFilter f).host = s.host := rfl
@[simp] theorem State.setFilter_taken (f : Option Filter) : (s.setFilter f).taken = s.taken := rfl

/-! `State.reply` -/

@[simp] theorem State.reply_config (r : Response) : (s.reply r).config = s.config := rfl
@[simp] theorem State.reply_acc (r : Response) : (s.reply r).acc = s.acc := rfl
@[simp] theorem State.reply_filter (r : Response) : (s.reply r).filter = s.filter := rfl
@[simp] theorem State.reply_rspPort (r : Response) : (s.reply r).rspPort = some r := rfl
@[simp] theorem State.reply_rst (r : Response) : (s.reply r).rst = s.rst := rfl
@[simp] theorem State.reply_cmdPort (r : Response) : (s.reply r).cmdPort = s.cmdPort := rfl
@[simp] theorem State.reply_rspReady (r : Response) : (s.reply r).rspReady = s.rspReady := rfl
@[simp] theorem State.reply_host (r : Response) : (s.reply r).host = s.host := rfl
@[simp] theorem State.reply_taken (r : Response) : (s.reply r).taken = s.taken := rfl

/-! `State.acceptCommand` -/

@[simp] theorem State.acceptCommand_config : (s.acceptCommand).config = s.config := rfl
@[simp] theorem State.acceptCommand_acc : (s.acceptCommand).acc = s.acc := rfl
@[simp] theorem State.acceptCommand_filter : (s.acceptCommand).filter = s.filter := rfl
@[simp] theorem State.acceptCommand_rspPort : (s.acceptCommand).rspPort = s.rspPort := rfl
@[simp] theorem State.acceptCommand_rst : (s.acceptCommand).rst = s.rst := rfl
@[simp] theorem State.acceptCommand_cmdPort : (s.acceptCommand).cmdPort = none := rfl
@[simp] theorem State.acceptCommand_rspReady : (s.acceptCommand).rspReady = s.rspReady := rfl
@[simp] theorem State.acceptCommand_host : (s.acceptCommand).host = s.host := rfl
@[simp] theorem State.acceptCommand_taken : (s.acceptCommand).taken = s.taken := rfl

/-! `State.takeResponse` -/

@[simp] theorem State.takeResponse_config : (s.takeResponse).config = s.config := rfl
@[simp] theorem State.takeResponse_acc : (s.takeResponse).acc = s.acc := rfl
@[simp] theorem State.takeResponse_filter : (s.takeResponse).filter = s.filter := rfl
@[simp] theorem State.takeResponse_rspPort : (s.takeResponse).rspPort = none := rfl
@[simp] theorem State.takeResponse_rst : (s.takeResponse).rst = s.rst := rfl
@[simp] theorem State.takeResponse_cmdPort : (s.takeResponse).cmdPort = s.cmdPort := rfl
@[simp] theorem State.takeResponse_rspReady : (s.takeResponse).rspReady = s.rspReady := rfl
@[simp] theorem State.takeResponse_host : (s.takeResponse).host = s.host := rfl
@[simp] theorem State.takeResponse_taken : (s.takeResponse).taken = s.taken ++ s.rspPort.toList := rfl

/-! `State.resetBlock` -/

@[simp] theorem State.resetBlock_config : (s.resetBlock).config = s.config := rfl
@[simp] theorem State.resetBlock_acc : (s.resetBlock).acc = fnvOffsetBasis := rfl
@[simp] theorem State.resetBlock_filter : (s.resetBlock).filter = none := rfl
@[simp] theorem State.resetBlock_rspPort : (s.resetBlock).rspPort = none := rfl
@[simp] theorem State.resetBlock_rst : (s.resetBlock).rst = s.rst := rfl
@[simp] theorem State.resetBlock_cmdPort : (s.resetBlock).cmdPort = s.cmdPort := rfl
@[simp] theorem State.resetBlock_rspReady : (s.resetBlock).rspReady = s.rspReady := rfl
@[simp] theorem State.resetBlock_host : (s.resetBlock).host = s.host := rfl
@[simp] theorem State.resetBlock_taken : (s.resetBlock).taken = s.taken := rfl

end Sys2Proof.Machine
end

