-- ==== Sys2Proof/Laws/Step.lean ====
section
/-! SUPPORT. What sending a response, a meaning and an event at the ports can do: one lemma each. -/

namespace Sys2Proof.Machine

/-- Everything `newStatus` can answer, with the condition of each answer (60_exceptions R147). -/
theorem newStatus_cases (n k : Int) (s : State) :
    ((n ≤ 0 ∨ k ≤ 0) ∧ newStatus n k s = .invalidArgument) ∨
    (1 ≤ n ∧ 1 ≤ k ∧ s.filter.isSome ∧ newStatus n k s = .alreadyConstructed) ∨
    (1 ≤ n ∧ 1 ≤ k ∧ s.filter = none ∧ s.config.bitsMax < n.toNat ∧ newStatus n k s = .capacityExceeded) ∨
    (1 ≤ n ∧ 1 ≤ k ∧ s.filter = none ∧ n.toNat ≤ s.config.bitsMax ∧ newStatus n k s = .ok) := by
  unfold newStatus State.valid bitsLength
  by_cases h : n ≤ 0 ∨ k ≤ 0
  · exact .inl ⟨h, by simp [h]⟩
  · have h1 : 1 ≤ n := by omega
    have h2 : 1 ≤ k := by omega
    cases hf : s.filter with
    | some f => exact .inr (.inl ⟨h1, h2, rfl, by simp [h]⟩)
    | none =>
      by_cases hb : s.config.bitsMax < n.toNat
      · exact .inr (.inr (.inl ⟨h1, h2, rfl, hb, by simp [h, hb]⟩))
      · exact .inr (.inr (.inr ⟨h1, h2, rfl, by omega, by simp [h, hb]⟩))

/-! ### The meaning of each instruction, as one equation over the shared operations

A note for proofs: where the kernel must see that a fact about `s` is one about `s.setAcc (fnvStep s.acc b)`, it compares
the two states field by field and unfolds the product until the recursion is too deep. So name the new accumulator
first (`obtain` from `exec_hbyte_named`), and move field facts with the simp lemmas of Laws/State, not by `rfl`. -/

theorem exec_hinit (s : State) : exec .hinit s = respond fnvOffsetBasis (s.setAcc fnvOffsetBasis) := rfl

theorem exec_hbyte (b : Byte) (s : State) :
    exec (.hbyte b) s = respond (fnvStep s.acc b) (s.setAcc (fnvStep s.acc b)) := rfl

/-- `HBYTE` with the new accumulator named. -/
theorem exec_hbyte_named (b : Byte) (s : State) :
    ∃ v, v = fnvStep s.acc b ∧ exec (.hbyte b) s = respond v (s.setAcc v) := ⟨_, rfl, exec_hbyte b s⟩

theorem exec_hget (s : State) : exec .hget s = respond s.acc s := rfl

theorem exec_new_of_ok {n k : Int} {s : State} (h : newStatus n k s = .ok) :
    exec (.new n k) s =
      respond (BitVec.ofNat 64 n.toNat) (s.setFilter (some { cap := n.toNat, k := k.toNat, bits := [] })) := by
  simp [exec, execNew, h, bitsLength, Memory.zeros]

theorem exec_new_of_ne_ok {n k : Int} {s : State} (h : newStatus n k s ≠ .ok) :
    exec (.new n k) s = raise (newStatus n k s) s := by
  simp only [exec, execNew]

/-- Without an instance the four commands that need one raise `NotConstructed`. -/
theorem exec_of_none {i : Instr} {s : State} (h : s.filter = none)
    (hi : i.opcode ∈ [Opcode.add, Opcode.present, Opcode.count, Opcode.free]) :
    exec i s = raise .notConstructed s := by
  cases i <;> simp_all [Instr.opcode, exec, execAdd, execPresent, execCount, execFree, withInstance]

/-- `ADD` on an instance with `M >= 1`: the derived addresses are listed after, the others as before, the canonical
form is kept. -/
theorem exec_add_of_some {h : Word} {s : State} {f : Filter} (hf : s.filter = some f) (hm : 1 ≤ f.m) :
    ∃ b, exec (.add h) s = respond 0#64 (s.setFilter (some { f with bits := b })) ∧
      f.setAll (f.addresses h) = some { f with bits := b } ∧
      (∀ j, j ∈ b ↔ j ∈ f.addresses h ∨ j ∈ f.bits) ∧ (Memory.wf f.bits → Memory.wf b) := by
  obtain ⟨b, hb, hmem, hwf⟩ := Filter.setAll_spec f (f.addresses h) (Filter.addresses_lt f h hm)
  exact ⟨b, by simp [exec, execAdd, withInstance, hf, hb], hb, hmem, hwf⟩

/-- `PRESENT` on an instance with `M >= 1`: the conjunction of the bits at the derived addresses. -/
theorem exec_present_of_some {h : Word} {s : State} {f : Filter} (hf : s.filter = some f) (hm : 1 ≤ f.m) :
    exec (.present h) s = respond (boolValue ((f.addresses h).all (Memory.read f.bits))) s := by
  simp [exec, execPresent, withInstance, hf, Filter.testAll_spec f true _ (Filter.addresses_lt f h hm)]

theorem exec_count_of_some {s : State} {f : Filter} (hf : s.filter = some f) :
    exec .count s = respond (BitVec.ofNat 64 f.popcount) s := by
  simp [exec, execCount, withInstance, hf]

theorem exec_free_of_some {s : State} {f : Filter} (hf : s.filter = some f) :
    exec .free s = respond 0#64 (s.setFilter none) := by
  simp [exec, execFree, withInstance, hf]

/-! ### What an answer can be -/

/-- `respond` answers one next state: the one it was given, with the response presented. -/
theorem respond_eq_next {v : Word} {t s' : State} :
    respond v t = .next s' ↔ s' = t.reply { status := .ok, value := v } := by
  simp [respond, eq_comm]

/-- `raise` answers one next state: the one it was given, with the error response presented. -/
theorem raise_eq_next {st : Status} {t s' : State} :
    raise st t = .next s' ↔ s' = t.reply { status := st, value := 0#64 } := by
  simp [raise, eq_comm]

/-- What a meaning may write: `ACC`, the filter and the response port. -/
def OnlyBlockWritten (s s' : State) : Prop :=
  ∃ a f r, s' = { s with acc := a, filter := f, rspPort := some r }

theorem OnlyBlockWritten.of_respond {v : Word} {s t s' : State}
    (ht : ∃ a f, t = { s with acc := a, filter := f }) (h : respond v t = .next s') : OnlyBlockWritten s s' := by
  obtain ⟨a, f, rfl⟩ := ht
  exact ⟨a, f, _, respond_eq_next.mp h⟩

theorem OnlyBlockWritten.of_raise {st : Status} {s s' : State} (h : raise st s = .next s') :
    OnlyBlockWritten s s' :=
  ⟨s.acc, s.filter, _, raise_eq_next.mp h⟩

theorem OnlyBlockWritten.of_withInstance {s s' : State} {act : Filter → Host.Outcome State Fault Refusal}
    (h : withInstance s act = .next s') (hact : ∀ f, act f = .next s' → OnlyBlockWritten s s') :
    OnlyBlockWritten s s' := by
  unfold withInstance at h
  cases hf : s.filter with
  | none => rw [hf] at h; exact .of_raise h
  | some f => rw [hf] at h; exact hact f h

/-- Whatever a meaning does, it writes `ACC`, the filter and the response port only. -/
theorem exec_next_shape {i : Instr} {s s' : State} (h : exec i s = .next s') : OnlyBlockWritten s s' := by
  cases i with
  | hinit => exact .of_respond ⟨_, s.filter, rfl⟩ h
  | hbyte b => exact .of_respond ⟨_, s.filter, rfl⟩ h
  | hget => exact .of_respond ⟨s.acc, s.filter, rfl⟩ h
  | new n k =>
    simp only [exec, execNew] at h
    split at h
    · exact .of_respond ⟨s.acc, _, rfl⟩ h
    · exact .of_raise h
  | add x =>
    refine .of_withInstance h fun f hf => ?_
    split at hf
    · cases hf
    · exact .of_respond ⟨s.acc, _, rfl⟩ hf
  | present x =>
    refine .of_withInstance h fun f hf => ?_
    split at hf
    · cases hf
    · exact .of_respond ⟨s.acc, s.filter, rfl⟩ hf
  | count => exact .of_withInstance h fun f hf => .of_respond ⟨s.acc, s.filter, rfl⟩ hf
  | free => exact .of_withInstance h fun f hf => .of_respond ⟨s.acc, _, rfl⟩ hf

/-- Everything one event at the ports can be: a response is taken, a word is accepted, the host changes a pin, or
nothing happens. -/
theorem portTurn_cases (s : State) :
    (s.rst = false ∧ s.rspReady = true ∧ (∃ r, s.rspPort = some r) ∧ portTurn s = (none, s.takeResponse)) ∨
    (∃ w, s.rst = false ∧ s.rspPort = none ∧ s.cmdPort = some w ∧ portTurn s = (some w, s.acceptCommand)) ∨
    (∃ a rest, s.host = a :: rest ∧ portTurn s = (none, { s with host := rest }.applyAction a)) ∨
    (s.host = [] ∧ portTurn s = (none, s)) := by
  have hh : (∃ a rest, s.host = a :: rest ∧ s.hostTurn = { s with host := rest }.applyAction a) ∨
      (s.host = [] ∧ s.hostTurn = s) := by
    unfold State.hostTurn
    cases s.host with
    | nil => exact .inr ⟨rfl, rfl⟩
    | cons a rest => exact .inl ⟨a, rest, rfl, rfl⟩
  have hidle : portTurn s = (none, s.hostTurn) →
      (∃ a rest, s.host = a :: rest ∧ portTurn s = (none, { s with host := rest }.applyAction a)) ∨
      (s.host = [] ∧ portTurn s = (none, s)) := by
    intro h
    rw [h]
    rcases hh with ⟨a, rest, h1, h2⟩ | ⟨h1, h2⟩
    · exact .inl ⟨a, rest, h1, by rw [h2]⟩
    · exact .inr ⟨h1, by rw [h2]⟩
  by_cases ht : (s.rspValid && s.rspReady) = true
  · refine .inl ?_
    have ht' := ht
    simp only [State.rspValid, Bool.and_eq_true, Bool.not_eq_true', Option.isSome_iff_exists] at ht'
    exact ⟨ht'.1.1, ht'.2, ht'.1.2, by rw [portTurn, if_pos ht]⟩
  · cases ha : s.accepted with
    | none => exact .inr (.inr (hidle (by rw [portTurn, if_neg ht, ha])))
    | some w =>
      refine .inr (.inl ⟨w, ?_⟩)
      have ha' := ha
      unfold State.accepted State.cmdReady at ha'
      split at ha'
      · rename_i hr
        simp only [Bool.and_eq_true, Bool.not_eq_true', Option.isNone_iff_eq_none] at hr
        exact ⟨hr.1, hr.2, ha', by rw [portTurn, if_neg ht, ha]⟩
      · cases ha'

end Sys2Proof.Machine
end

