-- ==== Sys2Proof/Tests/Slice0.lean ====
section
/-! SUPPORT. Tests of the model on the spec's own vectors (95_test_vectors; the id stands in each docstring), and for
every statement with hypotheses a witness that meets all of them together. -/

namespace Sys2Proof.Tests

open Sys2Proof Sys2Proof.Machine

/-! ### Helpers -/

/-- The state an outcome goes on with. -/
def after? : Host.Outcome State Fault Refusal → Option State
  | .next s => some s
  | .fault _ => none
  | .refused _ => none

/-- The status and the value of the response presented. -/
def answer (o : Host.Outcome State Fault Refusal) : Option (Status × Nat) :=
  ((after? o).bind State.rspPort).map fun r => (r.status, r.value.toNat)

/-- The addresses of the set bits after. -/
def bitsAfter (o : Host.Outcome State Fault Refusal) : Option Memory :=
  ((after? o).bind State.filter).map Filter.bits

/-- The reset state with an instance. -/
def withFilter (cap k : Nat) (bits : Memory) : State :=
  { State.reset with filter := some { cap := cap, k := k, bits := bits } }

/-- The instance of vectors F8 to F11: `NEW 8, 3` with bits 1, 3, 5, 7 set. -/
def loaded : State := withFilter 8 3 [1, 3, 5, 7]

/-- The reset state of a block with `BITS_MAX = 2^20`, as vectors E1 to E8 have it. -/
def small : State := { State.reset with config := { bitsMax := 2 ^ 20 } }

/-- The state `loaded` with a word presented. -/
def offered (w : CommandWord) : State := { loaded with cmdPort := some w }

/-- The state `loaded` with a response that waits. -/
def waiting : State := { loaded with rspPort := some { status := .ok, value := 4#64 } }

/-- What holds of each entry of a list, from the list's own check. -/
theorem forall_mem_of_all {α : Type} {p : α → Prop} [DecidablePred p] {l : List α}
    (h : l.all (fun a => decide (p a)) = true) : ∀ a ∈ l, p a := by simpa using h

/-! ### Well-formed instructions -/

theorem test_wf_refuses_capacity_above : (Instr.new 9223372036854775808 1).wellFormed = false := by decide
theorem test_wf_refuses_capacity_below : (Instr.new (-9223372036854775809) 1).wellFormed = false := by decide
theorem test_wf_refuses_rounds_above : (Instr.new 1 9223372036854775808).wellFormed = false := by decide
theorem test_wf_refuses_rounds_below : (Instr.new 1 (-9223372036854775809)).wellFormed = false := by decide
theorem test_wf_accepts_both_ends :
    (Instr.new (-9223372036854775808) 9223372036854775807).wellFormed = true := by decide

/-! ### Decoding: words written out from 30_encoding R60, R62, R63, R73 -/

theorem test_decode_hinit : decode 0x01_0000000000000000_0000000000000000#136 = .ok .hinit := by decide
/-- H34: only `A[7:0]` is used. -/
theorem test_decode_hbyte : decode 0x02_FFFFFFFFFFFFFF21_FFFFFFFFFFFFFFFF#136 = .ok (.hbyte 0x21#8) := by
  decide
theorem test_decode_hget : decode 0x03_0000000000000001_8000000000000000#136 = .ok .hget := by decide
/-- E4: the second operand is the most negative number. -/
theorem test_decode_new :
    decode 0x10_000000000000000A_8000000000000000#136 = .ok (.new 10 (-9223372036854775808)) := by decide
theorem test_decode_add :
    decode 0x11_7B495389BDBDD4C7_0000000000000000#136 = .ok (.add 8883723591023973575#64) := by decide
theorem test_decode_present :
    decode 0x12_8C06877B6C117D99_0000000000000000#136 = .ok (.present 10089900979333987737#64) := by decide
/-- F13: both operands all ones. -/
theorem test_decode_count : decode 0x13_FFFFFFFFFFFFFFFF_FFFFFFFFFFFFFFFF#136 = .ok .count := by decide
theorem test_decode_free : decode 0x14_0000000000000000_0000000000000000#136 = .ok .free := by decide
/-- E15, E16: the illegal neighbours of the assigned opcodes. -/
theorem test_decode_illegal :
    decode 0x00_0000000000001234_0000000000000007#136 = .error (.illegalOpcode 0x00#8) ∧
    decode 0x04_0000000000000000_0000000000000000#136 = .error (.illegalOpcode 0x04#8) ∧
    decode 0x0F_0000000000000000_0000000000000000#136 = .error (.illegalOpcode 0x0F#8) ∧
    decode 0x15_0000000000000000_0000000000000000#136 = .error (.illegalOpcode 0x15#8) ∧
    decode 0x20_0000000000000000_0000000000000000#136 = .error (.illegalOpcode 0x20#8) ∧
    decode 0x80_0000000000000000_0000000000000000#136 = .error (.illegalOpcode 0x80#8) ∧
    decode 0xFF_0000000000000000_0000000000000000#136 = .error (.illegalOpcode 0xFF#8) := by decide
/-- A row's bits as spec/opcode_table.json numbers them: `FREE` and, below it, an unassigned word. -/
theorem test_decode_table_word :
    decodeTableWord 136 0x1400000000000000000000000000000000 = some .free ∧
    decodeTableWord 136 0x0F00000000000000000000000000000000 = none := by decide

/-! ### The hash family -/

/-- H33: `HINIT` answers the basis whatever `ACC` was. -/
theorem test_hinit :
    answer (exec .hinit { loaded with acc := 7#64 }) = some (.ok, 14695981039346656037) := by decide
/-- H25, H26, H27: the multiply wraps, and it comes before the xor. -/
theorem test_hbyte_wraps :
    answer (exec (.hbyte 0x00#8) { loaded with acc := 0xFFFFFFFFFFFFFFFF#64 }) = some (.ok, 0xFFFFFEFFFFFFFE4D) ∧
    answer (exec (.hbyte 0xFF#8) { loaded with acc := 0xFFFFFFFFFFFFFFFF#64 }) = some (.ok, 0xFFFFFEFFFFFFFEB2) ∧
    answer (exec (.hbyte 0x01#8) { loaded with acc := 0x8000000000000000#64 }) = some (.ok, 0x8000000000000001) := by
  decide
/-- H34: the word form, its ignored bits all ones. -/
theorem test_hbyte_word :
    answer (perform 0x02_FFFFFFFFFFFFFF21_FFFFFFFFFFFFFFFF#136 { loaded with acc := 0x08326007B4EB2B9C#64 }) =
      some (.ok, 0xD8C4C9186B9B1A35) := by decide
/-- `HGET` answers `ACC` and keeps it (40_hash R83). -/
theorem test_hget :
    (after? (exec .hget { loaded with acc := 0x08326007B4EB2B9C#64 })).map (fun s => (s.acc, s.rspPort)) =
      some (0x08326007B4EB2B9C#64, some { status := .ok, value := 0x08326007B4EB2B9C#64 }) := by decide
/-- H3, H11, H12, H13: whole inputs; byte order matters. -/
theorem test_fnv1 :
    fnv1 [0x66#8, 0x6F#8, 0x6F#8, 0x62#8, 0x61#8, 0x72#8] = 0x340D8765A4DDA9C2#64 ∧
    fnv1 [0xC3#8, 0xA9#8] = 0x0831C507B4EA243D#64 ∧
    fnv1 [0x61#8, 0x62#8] = 0x08326707B4EB37B8#64 ∧ fnv1 [0x62#8, 0x61#8] = 0x08326607B4EB3646#64 := by
  decide

/-! ### The index derivation -/

/-- X5, X8, X12: rows where exact arithmetic would give other indices. -/
theorem test_indices_wrap :
    indices 0xFFFFFFFFFFFFFFFF#64 4 7 = [1, 0, 6, 5] ∧
    indices 0x123456789ABCDEF0#64 5 1000 = [320, 0, 64, 744, 808] ∧
    indices 0xFFFFFFFF00000001#64 4 1000 = [321, 296, 887, 478] := by decide
/-- X3, X18, X22: a large array, a repeat, a small array. -/
theorem test_indices :
    indices 0x0000000000000001#64 4 1099511627776 = [1, 4294967297, 8589934593, 12884901889] ∧
    indices 0x0000000400000001#64 3 8 = [1, 5, 1] ∧
    indices 0x0000000500000003#64 4 8 = [3, 0, 5, 2] := by decide

/-! ### The filter family -/

/-- E7, E8, and E12 with `BITS_MAX = 2^63-1`: the bound is the last accepted capacity. -/
theorem test_new_bound :
    answer (exec (.new 1048577 1) small) = some (.capacityExceeded, 0) ∧
    answer (exec (.new 1048576 1) small) = some (.ok, 1048576) ∧
    answer (exec (.new 9223372036854775807 1) small) = some (.capacityExceeded, 0) := by decide
/-- E4, E9, E10, E11: the priority of the refusals. -/
theorem test_new_priority :
    answer (exec (.new 10 (-9223372036854775808)) small) = some (.invalidArgument, 0) ∧
    answer (exec (.new 16 2) { small with filter := loaded.filter }) = some (.alreadyConstructed, 0) ∧
    answer (exec (.new 0 0) { small with filter := loaded.filter }) = some (.invalidArgument, 0) ∧
    answer (exec (.new 9223372036854775807 1) { small with filter := loaded.filter }) =
      some (.alreadyConstructed, 0) := by decide
/-- F4, F6, F7: three new bits, none, one. -/
theorem test_add :
    bitsAfter (exec (.add 0x0000000200000001#64) (withFilter 8 3 [])) = some [1, 3, 5] ∧
    bitsAfter (exec (.add 0x0000000400000001#64) (withFilter 8 3 [1, 3, 5])) = some [1, 3, 5] ∧
    bitsAfter (exec (.add 0x0000000000000007#64) (withFilter 8 3 [1, 3, 5])) = some [1, 3, 5, 7] := by
  decide
/-- F12, F20: field `B` is ignored; the top of the array. -/
theorem test_add_word :
    bitsAfter (perform 0x11_0000000100000003_FFFFFFFFFFFFFFFF#136 (withFilter 8 3 [1, 3, 5])) = some [1, 3, 4, 5] ∧
    bitsAfter (exec (.add 0xFFFFFFFFFFFFFFFF#64) (withFilter 16 2 [])) = some [14, 15] := by decide
/-- F8, F9: one bit unset; a false positive. -/
theorem test_present :
    answer (exec (.present 0x0000000100000003#64) loaded) = some (.ok, 0) ∧
    answer (exec (.present 0x0000000200000005#64) loaded) = some (.ok, 1) := by decide
/-- F3, E14: a fresh filter; no filter. -/
theorem test_present_fresh :
    answer (exec (.present 0x0000000200000001#64) (withFilter 8 3 [])) = some (.ok, 0) ∧
    answer (exec (.present 5#64) State.reset) = some (.notConstructed, 0) := by decide
/-- F11, F13, F18: operands all ones; a full filter counts `M`. -/
theorem test_count :
    answer (exec .count loaded) = some (.ok, 4) ∧
    answer (perform 0x13_FFFFFFFFFFFFFFFF_FFFFFFFFFFFFFFFF#136 (withFilter 8 3 [1, 3, 5])) = some (.ok, 3) ∧
    answer (exec .count (withFilter 1 1000 [0])) = some (.ok, 1) := by decide
/-- F21, E14: `FREE` ends the instance and keeps `ACC`; without an instance it is refused. -/
theorem test_free :
    (after? (exec .free { loaded with acc := 5#64 })).map (fun s => (s.filter, s.acc, s.rspPort)) =
      some (none, 5#64, some { status := .ok, value := 0#64 }) ∧
    answer (exec .free State.reset) = some (.notConstructed, 0) := by decide
/-- E15: an illegal word changes nothing but the response port. -/
theorem test_illegal_word :
    after? (perform 0x00_0000000000001234_0000000000000007#136 loaded) =
      some { loaded with rspPort := some { status := .illegalCommand, value := 0#64 } } := by decide

/-! ### Words, ports, steps -/

/-- The response words of vector F1 and of E1 to E18 (30_encoding R61; 60_exceptions R140). -/
theorem test_response_word :
    Response.word { status := .ok, value := 8#64 } = 0x00_0000000000000008#72 ∧
    [Status.invalidArgument, .notConstructed, .illegalCommand, .capacityExceeded, .alreadyConstructed].map
        (fun st => Response.word { status := st, value := 0#64 }) =
      [0x01_0000000000000000#72, 0x02_0000000000000000#72, 0x03_0000000000000000#72, 0x04_0000000000000000#72,
       0x05_0000000000000000#72] := by decide
/-- The host's check, on `NEW 8, 3` (F1): the very next step after reset runs the word. -/
theorem test_fetch_word :
    (after? (step (State.reset.withFetchWord 136 0x1000000000000000080000000000000003))).map
        (fun s => (s.filter, s.rspData)) =
      some (some { cap := 8, k := 3, bits := [] }, some 0x00_0000000000000008#72) := by decide
/-- Z2: `ACC` is the basis after reset. -/
theorem test_reset_acc :
    (after? (stepN 2 { loaded with acc := 5#64, host := [.driveRst true, .driveRst false] })) =
      some State.reset := by decide
/-- 30_encoding R71: a response that waits stops the next word. -/
theorem test_response_waits :
    after? (step { waiting with cmdPort := some (encode .free) }) =
      some { waiting with cmdPort := some (encode .free) } := by decide
/-- 30_encoding R68's own example, and an error response. -/
theorem test_response_text :
    Response.text { status := .ok, value := 30#64 } = "-> OK, 30" ∧
    Response.text { status := .notConstructed, value := 0#64 } = "-> NotConstructed, 0" := by decide
/-- 20_memory R40: a write of 0 delists the address, a second write of 1 lists it once. -/
theorem test_memory_canonical :
    Memory.write [1, 3, 5] 3 false = [1, 5] ∧ Memory.write [1, 3, 5] 3 true = [1, 3, 5] ∧
    Memory.write [1, 5] 0 true = [0, 1, 5] ∧ Memory.wf Memory.zeros := by decide

/-! ### Witnesses: for each statement with hypotheses, states and operands that meet them

A premise `exec i s = .next s'` is met by the state `s'` the machine answers; the last equation of a witness says what
that state is. -/

theorem witness_DecodeAndEncodeAgree :
    (opField 0x02_FFFFFFFFFFFFFF21_FFFFFFFFFFFFFFFF#136 = Opcode.hbyte.code ∧
      0x02_FFFFFFFFFFFFFF21_FFFFFFFFFFFFFFFF#136 &&& Opcode.hbyte.usedBits =
        0x02_0000000000000021_0000000000000000#136 &&& Opcode.hbyte.usedBits) ∧
    (Instr.new (-9223372036854775808) 9223372036854775807).WellFormed ∧
    decode 0x14_0000000000000000_0000000000000001#136 = .ok .free ∧
    decode 0x14_0000000000000000_0000000000000000#136 = .ok .free := by decide

theorem witness_UnusedOperandBitsAreIgnored :
    (0x0000000000000021#64).toNat % 256 = (0xFFFFFFFFFFFFFF21#64).toNat % 256 := by decide

theorem witness_IllegalOpcodeIsAnsweredAndChangesNothing :
    (∀ op ∈ [0x00#8, 0x04#8, 0x0F#8, 0x15#8, 0xFF#8],
      op ∉ [0x01#8, 0x02#8, 0x03#8, 0x10#8, 0x11#8, 0x12#8, 0x13#8, 0x14#8]) ∧
    (after? (perform (0x15#8 ++ 1#64 ++ 2#64) loaded)).isSome ∧
    (let s := offered (0x15#8 ++ 1#64 ++ 2#64)
     s.rst = false ∧ s.rspPort = none ∧ s.cmdPort = some (0x15#8 ++ 1#64 ++ 2#64)) := by decide

theorem witness_ResponseWordAndErrorValue :
    after? (perform (encode .count) State.reset) =
      some { State.reset with rspPort := some { status := .notConstructed, value := 0#64 } } ∧
    Status.notConstructed ≠ .ok := by decide

theorem witness_StepPerformsThePresentedWord :
    (let s := offered (encode .count)
     s.rst = false ∧ s.rspPort = none ∧ s.cmdPort = some (encode .count) ∧ decode (encode .count) = .ok .count) ∧
    decode (0x04#8 ++ 0#64 ++ 0#64) = .error (.illegalOpcode 0x04#8) ∧
    decodeTableWord 136 0x0300000000000000000000000000000000 = some .hget := by decide

/-- One state for each way a step can go: held, taken, dropped by reset; nothing accepted, a word accepted. -/
theorem witness_OneResponsePerAcceptedCommand :
    (waiting.rst = false ∧ waiting.rspPort = some { status := .ok, value := 4#64 } ∧
      after? (step waiting) = some waiting) ∧
    after? (step { waiting with rspReady := true }) =
      some { loaded with rspReady := true, taken := [{ status := .ok, value := 4#64 }] } ∧
    after? (step { waiting with host := [.driveRst true] }) = some { State.reset with rst := true } ∧
    (loaded.rspPort = none ∧ after? (step loaded) = some loaded) ∧
    after? (step (offered (encode .count))) = some waiting := by decide

theorem witness_PortsDeliverTheHistory :
    (let ws := [encode .count, encode .free, encode .count]
     let s := { loaded with rspReady := true, host := ws.map (fun w => .driveCommand (some w)) }
     s.Inv ∧ s.rst = false ∧ s.rspPort = none ∧ s.cmdPort = none ∧ s.rspReady = true ∧
       s.host = ws.map (fun w => HostAction.driveCommand (some w)) ++ [] ∧
       (after? (stepN 9 s)).map (fun t => t.taken.map Response.word) =
         some [0x00_0000000000000004#72, 0x00_0000000000000000#72, 0x02_0000000000000000#72]) := by decide

theorem witness_IdleStepChangesNothing :
    (loaded.host = [] ∧ loaded.cmdPort = none ∧ loaded.rspPort = none) ∧
    (waiting.host = [] ∧ waiting.rspPort.isSome ∧ waiting.rspReady = false) ∧
    (let s := { State.reset with rst := true }
     s.host = [] ∧ s.rst = true) := by decide

theorem witness_ResetInput :
    (let s := { State.reset with rst := true, cmdPort := some (encode .count), host := [.driveRst false] }
     s.rst = true ∧ s.host = HostAction.driveRst false :: [] ∧ s.accepted = none) ∧
    (let s := { waiting with host := [.driveRst true] }
     s.host = HostAction.driveRst true :: [] ∧ s.accepted = none ∧ s.rspReady = false) := by decide

theorem witness_ResetCutsOffAResponse :
    (let s := { offered (encode (.add 7#64)) with host := [.driveRst true] }
     s.BlockWf ∧ s.rst = false ∧ s.rspPort = none ∧ s.cmdPort = some (encode (.add 7#64)) ∧ s.rspReady = false ∧
       s.host = HostAction.driveRst true :: [] ∧
       after? (stepN 2 s) = some { State.reset with rst := true }) := by decide

/-- An instance with the last bit set, a response that waits, one that was taken; and the state while `rst = 1`. -/
theorem witness_EveryStepKeepsTheInvariant :
    State.Inv { waiting with taken := [{ status := .illegalCommand, value := 0#64 }] } ∧
    State.Inv { State.reset with rst := true, host := [.driveRst false] } ∧
    loaded.filter.isSome := by decide

theorem witness_ResetSatisfiesTheInvariant :
    Config.wf { bitsMax := 1 } ∧ Config.wf { bitsMax := 9223372036854775807 } := by decide

theorem witness_HistoriesKeepTheBlockWellFormed :
    loaded.BlockWf ∧ (withFilter 1 9223372036854775807 [0]).BlockWf := by decide

/-- Each instruction answers a next state; `NEW` on an instance; an `ADD` that sets bit 0, and bit 2 outside its
addresses. -/
theorem witness_FrameOfEveryInstruction :
    (∀ i ∈ [Instr.hinit, .hbyte 0x41#8, .hget, .new 8 3, .add 7#64, .present 7#64, .count, .free],
      (after? (exec i loaded)).isSome) ∧
    Instr.hget.opcode ∉ [Opcode.hinit, Opcode.hbyte] ∧
    Instr.hget.opcode ∉ [Opcode.new, Opcode.add, Opcode.free] ∧ (Instr.add 7#64).opcode = .add ∧
    (Instr.new 8 3).opcode = .new ∧ loaded.filter.isSome ∧ loaded.filter = some { cap := 8, k := 3, bits := [1, 3, 5, 7] } ∧
    (after? (exec (.add 0#64) loaded)).bind State.filter = some { cap := 8, k := 3, bits := [0, 1, 3, 5, 7] } ∧
    2 ∉ Filter.addresses { cap := 8, k := 3, bits := [1, 3, 5, 7] } 0#64 := by decide

/-- One state for each way an instance can fare. -/
theorem witness_InstanceIsImmutableAndBitsMonotone :
    (after? (step (offered (encode (.add 0#64))))).bind State.filter = some { cap := 8, k := 3, bits := [0, 1, 3, 5, 7] } ∧
    (after? (step (offered (encode .free)))).map State.filter = some none ∧
    (after? (step { loaded with host := [.driveRst true] })).map (fun s => (s.filter, s.rst)) = some (none, true) := by
  decide

theorem witness_PureReadsAndErrorsChangeNothing :
    after? (perform (encode .count) loaded) = some waiting ∧ decode (encode .count) = .ok .count ∧
    after? (perform (encode (.present 0x0000000200000005#64)) loaded) =
      some { loaded with rspPort := some { status := .ok, value := 1#64 } } ∧
    after? (perform (encode .hget) loaded) =
      some { loaded with rspPort := some { status := .ok, value := 0xCBF29CE484222325#64 } } ∧
    after? (perform (0x15#8 ++ 0#64 ++ 0#64) loaded) =
      some { loaded with rspPort := some { status := .illegalCommand, value := 0#64 } } ∧
    after? (perform (encode (.new 0 1)) loaded) =
      some { loaded with rspPort := some { status := .invalidArgument, value := 0#64 } } := by decide

theorem witness_HinitResult :
    (after? (exec .hinit loaded)) =
      some { loaded with rspPort := some { status := .ok, value := 0xCBF29CE484222325#64 } } := by decide

theorem witness_StreamLaw :
    (∀ w ∈ [encode (.hbyte 0x68#8), encode .count, encode .free, encode (.hbyte 0x69#8)], decode w ≠ .ok .hinit) ∧
    loaded.BlockWf ∧ decode (encode .hinit) = .ok .hinit ∧
    hashBytes [encode (.hbyte 0x68#8), encode .count, encode .free, encode (.hbyte 0x69#8)] = [0x68#8, 0x69#8] :=
  ⟨forall_mem_of_all (by decide), by decide⟩

theorem witness_HashAndFilterAreIndependent :
    (notHashCommand (encode (.add 0#64)) = true ∧ (after? (perform (encode (.add 0#64)) loaded)).isSome) ∧
    (notHashCommand (encode (.hbyte 1#8)) = false ∧ (after? (perform (encode (.hbyte 1#8)) loaded)).isSome) ∧
    (after? (step (offered (encode (.hbyte 1#8))))).map State.acc = some 0xAF63BD4C8601B7DE#64 ∧
    loaded.acc ≠ 0xAF63BD4C8601B7DE#64 := by decide

theorem witness_HashIsAFunctionOfTheBytes :
    (∀ w ∈ [encode (.hbyte 0x68#8), encode .count, encode (.hbyte 0x69#8)], decode w ≠ .ok .hinit) ∧
    (∀ w ∈ [encode .hget, encode (.hbyte 0x68#8), 0x02_FFFFFFFFFFFFFF69_FFFFFFFFFFFFFFFF#136],
      decode w ≠ .ok .hinit) ∧
    hashBytes [encode (.hbyte 0x68#8), encode .count, encode (.hbyte 0x69#8)] =
      hashBytes [encode .hget, encode (.hbyte 0x68#8), 0x02_FFFFFFFFFFFFFF69_FFFFFFFFFFFFFFFF#136] ∧
    loaded.BlockWf ∧ small.BlockWf ∧ decode (encode .hinit) = .ok .hinit ∧
    decode 0x01_0000000000000000_0000000000000001#136 = .ok .hinit :=
  ⟨forall_mem_of_all (by decide), forall_mem_of_all (by decide), by decide⟩

/-- The bounds `i`, `k'` and `m` of the statements about indices, at their ends: `m = 1` and `k' = 0`, and the first
round alone (X9, X11). -/
theorem witness_IndexStatements :
    (1 ≤ 1 ∧ index 0x123456789ABCDEF0#64 0 1 = 0) ∧ (1 ≤ 10000 ∧ index 0x123456789ABCDEF0#64 0 10000 = 320) ∧
    (0 ≤ 1 ∧ (indices 0x123456789ABCDEF0#64 1 10000).take 0 = []) := by decide

/-- `m = 8`, `m = 1` and `m = 2^32` divide `2^32`; `p = 0` and `p = 62` (X17). -/
theorem witness_PowerOfTwoIndex :
    (8 ∣ 2 ^ 32 ∧ index 0x0000000200000001#64 2 8 = 5) ∧ 1 ∣ 2 ^ 32 ∧ 4294967296 ∣ 2 ^ 32 ∧ 0 ≤ 62 ∧ 62 ≤ 62 := by
  decide

/-- A state for each of the four outcomes, at the bound on either side. -/
theorem witness_NewResult :
    ((0 : Int) ≤ 0 ∨ (1 : Int) ≤ 0) ∧
    ((0 : Int) < 1 ∧ (0 : Int) < 1 ∧ loaded.filter ≠ none) ∧
    ((0 : Int) < 1048577 ∧ (0 : Int) < 1 ∧ small.filter = none ∧ (small.config.bitsMax : Int) < 1048577) ∧
    ((0 : Int) < 1048576 ∧ (0 : Int) < 1 ∧ small.filter = none ∧ (1048576 : Int) ≤ small.config.bitsMax) := by
  decide

/-- Without an instance, with one of eight bits, and with one of a single bit (F16). -/
theorem witness_AddResult :
    State.reset.filter = none ∧
    (loaded.filter = some { cap := 8, k := 3, bits := [1, 3, 5, 7] } ∧
      Filter.wf { cap := 8, k := 3, bits := [1, 3, 5, 7] } loaded.config ∧
      (after? (exec (.add 0#64) loaded)).isSome ∧ [4, 5, 3].Perm (indices 0x0000000100000003#64 3 8)) ∧
    (Filter.wf { cap := 1, k := 1000, bits := [] } State.reset.config ∧
      bitsAfter (exec (.add 77#64) (withFilter 1 1000 [])) = some [0]) := by decide +kernel

/-- Without an instance, a bit missing (0), all bits there (1), and a fresh filter. -/
theorem witness_PresentResult :
    State.reset.filter = none ∧
    (let f : Filter := { cap := 8, k := 3, bits := [1, 3, 5, 7] }
     loaded.filter = some f ∧ 1 ≤ f.m ∧
       (0#64 = if ∀ i < f.k, f.memRead (index 0x0000000100000003#64 i f.m) = some true then 1#64 else 0#64) ∧
       (1#64 = if ∀ i < f.k, f.memRead (index 0x0000000200000005#64 i f.m) = some true then 1#64 else 0#64)) ∧
    (let f : Filter := { cap := 1, k := 1, bits := [] }
     (withFilter 1 1 []).filter = some f ∧ 1 ≤ f.m ∧ 1 ≤ f.k ∧ ∀ j < f.m, f.memRead j = some false) := by
  decide

theorem witness_CountResult :
    State.reset.filter = none ∧ loaded.config.wf ∧
    Filter.wf { cap := 8, k := 3, bits := [1, 3, 5, 7] } loaded.config ∧
    (let f : Filter := { cap := 8, k := 3, bits := [] }
     f.wf State.reset.config ∧ ∀ j < f.m, f.memRead j = some false) := by decide

theorem witness_FreeResult :
    State.reset.filter = none ∧ loaded.filter ≠ none ∧
    (∀ i ∈ [Instr.add 5#64, .present 5#64, .count, .free],
      i.opcode ∈ [Opcode.add, Opcode.present, Opcode.count, Opcode.free]) ∧
    ((0 : Int) < 16 ∧ (0 : Int) < 2 ∧ (16 : Int) ≤ loaded.config.bitsMax) := by decide

/-- F17, F19: one bit, set; and eight bits, all set. -/
theorem witness_FullFilter :
    (let f : Filter := { cap := 1, k := 1000, bits := [0] }
     (withFilter 1 1000 [0]).filter = some f ∧ f.wf State.reset.config ∧ ∀ j < f.m, f.memRead j = some true) ∧
    (let f : Filter := { cap := 8, k := 3, bits := List.range 8 }
     (withFilter 8 3 (List.range 8)).filter = some f ∧ f.wf State.reset.config ∧ ∀ j < f.m, f.memRead j = some true) :=
  by decide

/-- The law of 95_test_vectors section 2.3 on its small case: both orders from `BITS = {}`. -/
theorem witness_AddIdempotentAndCommutative :
    (withFilter 8 3 []).BlockWf ∧ (withFilter 8 3 []).filter ≠ none ∧
    bitsAfter (performAll [encode (.add 0x0000000200000001#64), encode (.add 7#64)] (withFilter 8 3 [])) =
      some [1, 3, 5, 7] ∧
    bitsAfter (performAll [encode (.add 7#64), encode (.add 0x0000000200000001#64)] (withFilter 8 3 [])) =
      some [1, 3, 5, 7] := by decide

/-- F6 (all derived bits set before), F7 (one of them not), and a word that is no `ADD`. -/
theorem witness_CountIncrease :
    (let f : Filter := { cap := 8, k := 3, bits := [1, 3, 5] }
     (withFilter 8 3 [1, 3, 5]).filter = some f ∧ f.wf State.reset.config ∧ f.popcount = 3 ∧
       (∀ i < f.k, Memory.read f.bits (index 0x0000000400000001#64 i f.m) = true) ∧
       Memory.read f.bits (index 7#64 0 f.m) = false) ∧
    (isAdd (encode (.present 7#64)) = false ∧
      (after? (perform (encode (.present 7#64)) loaded)).map State.filter = some loaded.filter) := by decide

/-- At the ends of the ranges of `n` and `k`, with no `ADD` and with one. -/
theorem witness_BoundedCount :
    (∀ w ∈ [encode (.add 7#64), encode .hinit, 0x15#8 ++ 0#64 ++ 0#64], decode w ≠ .ok .free) ∧
    State.reset.BlockWf ∧ State.reset.filter = none ∧
    ((0 : Int) < 9223372036854775807 ∧ (9223372036854775807 : Int) < 2 ^ 63 ∧
      (9223372036854775807 : Int) ≤ State.reset.config.bitsMax) ∧ ((0 : Int) < 1 ∧ (1 : Int) < 2 ^ 63) ∧
    ([encode (.add 7#64), encode .hinit].filter isAdd).length = 1 ∧ ([encode .hinit].filter isAdd).length = 0 :=
  ⟨forall_mem_of_all (by decide), by decide⟩

theorem witness_NoFalseNegatives :
    (∀ w ∈ [encode (.add 7#64), encode (.new 1 1), encode .hinit, 0x15#8 ++ 0#64 ++ 0#64], decode w ≠ .ok .free) ∧
    loaded.BlockWf ∧ loaded.filter ≠ none :=
  ⟨forall_mem_of_all (by decide), by decide⟩

/-- Equal parameters with a `FREE` among the words; unequal ones without. -/
theorem witness_EqualInstancesAnswerAlike :
    (∀ w ∈ [encode .count, encode .free, encode (.new 8 3)], notHashCommand w = true) ∧
    (∀ w ∈ [encode .count, encode (.new 2097152 3)], notHashCommand w = true ∧ decode w ≠ .ok .free) ∧
    (loaded.filter = State.filter { loaded with acc := 1#64 } ∧
      loaded.config = State.config { loaded with acc := 1#64 }) ∧
    (loaded.filter = State.filter { small with filter := loaded.filter } ∧ loaded.filter ≠ none ∧
      loaded.config ≠ small.config) :=
  ⟨forall_mem_of_all (by decide), forall_mem_of_all (by decide), by decide⟩

theorem witness_FalsePositivesAreLegal :
    (∀ w ∈ [encode (.add 7#64)], decode w ≠ .ok .free) ∧
    (State.reset.filter = none ∧ 8 ≤ State.reset.config.bitsMax) ∧
    State.filter { small with config := { bitsMax := 8 } } = none ∧
    (loaded.BlockWf ∧ loaded.filter ≠ none ∧
      (after? (performAll [encode (.add 7#64)] loaded)).map (fun s => answer (exec (.present 4#64) s)) =
        some (some (.ok, 0))) :=
  ⟨forall_mem_of_all (by decide), by decide⟩

theorem witness_EndToEndScenario :
    (State.reset.filter = none ∧ 10000 ≤ State.reset.config.bitsMax) ∧
    (let s := { State.reset with config := { bitsMax := 10000 } }
     s.filter = none ∧ 10000 ≤ s.config.bitsMax) := by decide

/-- A well-formed block with an instance and one without. -/
theorem witness_StatusPriority : loaded.BlockWf ∧ small.BlockWf ∧ small.filter = none := by decide

/-- E7 to E11, E13, E15: each error status, as the answer that meets the hypotheses. -/
theorem witness_ErrorsArePreciseAndNotSticky :
    answer (perform (encode (.new 1048577 1)) small) = some (.capacityExceeded, 0) ∧
    answer (perform (encode (.new 16 2)) loaded) = some (.alreadyConstructed, 0) ∧
    answer (perform (encode (.new 0 0)) loaded) = some (.invalidArgument, 0) ∧
    answer (perform (encode (.add 5#64)) small) = some (.notConstructed, 0) ∧
    answer (perform (0x00#8 ++ 0x1234#64 ++ 7#64) small) = some (.illegalCommand, 0) := by decide

/-- E1, E7, E9, E13, E15: a word and a state for each row of the table of 60_exceptions R140, with the response word. -/
theorem witness_StatusTable :
    [perform (encode (.new 1 1)) small, perform (encode (.new 0 10)) small, perform (encode (.add 5#64)) small,
        perform (0x00#8 ++ 0x1234#64 ++ 7#64) small, perform (encode (.new 1048577 1)) small,
        perform (encode (.new 16 2)) loaded].map
      (fun o => ((after? o).bind State.rspPort).map Response.word) =
    [some 0x00_0000000000000001#72, some 0x01_0000000000000000#72, some 0x02_0000000000000000#72,
      some 0x03_0000000000000000#72, some 0x04_0000000000000000#72, some 0x05_0000000000000000#72] := by decide

/-- E1, E2, E3, E6, and the nearest accepted neighbour `NEW 1, 1`. -/
theorem witness_InvalidArgumentExactly :
    ([(0#64, 10#64), (10#64, 0#64), (0xFFFFFFFFFFFFFFFF#64, 10#64), (0x8000000000000000#64, 1#64)].map
      fun p => answer (perform (0x10#8 ++ p.1 ++ p.2) small)) = List.replicate 4 (some (.invalidArgument, 0)) ∧
    answer (perform (0x10#8 ++ 1#64 ++ 1#64) small) = some (.ok, 1) := by decide

theorem witness_NotConstructed :
    small.filter = none ∧ ∀ i ∈ [Instr.add 5#64, .present 5#64, .count, .free],
      i.opcode ∈ [Opcode.add, Opcode.present, Opcode.count, Opcode.free] := by decide

theorem witness_CommandsThatCannotFail :
    (∀ i ∈ [Instr.hinit, .hbyte 0#8, .hget], i.opcode ∈ [Opcode.hinit, Opcode.hbyte, Opcode.hget]) ∧
    loaded.BlockWf ∧ loaded.valid = true ∧
    (∀ i ∈ [Instr.add 5#64, .present 5#64, .count, .free],
      i.opcode ∈ [Opcode.add, Opcode.present, Opcode.count, Opcode.free]) := by decide

end Sys2Proof.Tests
end

/-! PROOFS. What an instruction that answers has done to the state (10_state R31, R34), and the state after reset
(10_state R32). -/

namespace Sys2Proof.Machine

/-! ### The effect of an instruction -/

/-- What an instruction that answers has made of `s` before its response is presented: nothing (a read or an error), or
the one write of a command that succeeds, with the condition it succeeds under. -/
inductive Effect (s : State) : Instr → State → Prop where
  | unchanged (i : Instr) : Effect s i s
  | hinit : Effect s .hinit (s.setAcc fnvOffsetBasis)
  | hbyte (b : Byte) (v : Word) (hv : v = fnvStep s.acc b) : Effect s (.hbyte b) (s.setAcc v)
  | new (n k : Int) (hnone : s.filter = none) (hok : newStatus n k s = .ok) :
      Effect s (.new n k) (s.setFilter (some { cap := n.toNat, k := k.toNat, bits := [] }))
  | add (h : Word) (f f' : Filter) (hf : s.filter = some f) (hset : f.setAll (f.addresses h) = some f') :
      Effect s (.add h) (s.setFilter (some f'))
  | free (hsome : s.filter.isSome) : Effect s .free (s.setFilter none)

/-- A command over the instance answers by `NotConstructed` where there is none, and by its action where there is one. -/
theorem withInstance_eq_next {s s' : State} {act : Filter → Host.Outcome State Fault Refusal} :
    withInstance s act = .next s' ↔
      (s.filter = none ∧ s' = s.reply { status := .notConstructed, value := 0#64 }) ∨
      ∃ f, s.filter = some f ∧ act f = .next s' := by
  unfold withInstance
  cases s.filter <;> simp [raise_eq_next]

/-- `NEW` succeeds only where no instance exists (60_exceptions R147 line 3). -/
theorem filter_eq_none_of_newStatus_ok {n k : Int} {s : State} (h : newStatus n k s = .ok) : s.filter = none := by
  rcases newStatus_cases n k s with ⟨-, h'⟩ | ⟨-, -, -, h'⟩ | ⟨-, -, hnone, -⟩ | ⟨-, -, hnone, -⟩
  · simp [h] at h'
  · simp [h] at h'
  · exact hnone
  · exact hnone

/-- Every answer is one of the effects, with a response presented. -/
theorem exec_next_effect {i : Instr} {s s' : State} (h : exec i s = .next s') :
    ∃ t r, Effect s i t ∧ s' = t.reply r := by
  cases i with
  | hinit => exact ⟨_, _, .hinit, respond_eq_next.mp h⟩
  | hbyte b =>
    obtain ⟨v, hv, hexec⟩ := exec_hbyte_named b s
    exact ⟨_, _, .hbyte b v hv, respond_eq_next.mp (hexec ▸ h)⟩
  | hget => exact ⟨_, _, .unchanged _, respond_eq_next.mp h⟩
  | new n k =>
    by_cases hok : newStatus n k s = .ok
    · rw [exec_new_of_ok hok] at h
      exact ⟨_, _, .new n k (filter_eq_none_of_newStatus_ok hok) hok, respond_eq_next.mp h⟩
    · rw [exec_new_of_ne_ok hok] at h
      exact ⟨_, _, .unchanged _, raise_eq_next.mp h⟩
  | add x =>
    obtain ⟨-, rfl⟩ | ⟨f, hf, hact⟩ := withInstance_eq_next.mp h
    · exact ⟨_, _, .unchanged _, rfl⟩
    · cases hset : f.setAll (f.addresses x) with
      | none => simp [hset] at hact
      | some f' => exact ⟨_, _, .add x f f' hf hset, respond_eq_next.mp (by simpa [hset] using hact)⟩
  | present x =>
    obtain ⟨-, rfl⟩ | ⟨f, -, hact⟩ := withInstance_eq_next.mp h
    · exact ⟨_, _, .unchanged _, rfl⟩
    · cases htest : f.testAll true (f.addresses x) with
      | none => simp [htest] at hact
      | some r => exact ⟨_, _, .unchanged _, respond_eq_next.mp (by simpa [htest] using hact)⟩
  | count =>
    obtain ⟨-, rfl⟩ | ⟨f, -, hact⟩ := withInstance_eq_next.mp h
    · exact ⟨_, _, .unchanged _, rfl⟩
    · exact ⟨_, _, .unchanged _, respond_eq_next.mp hact⟩
  | free =>
    obtain ⟨-, rfl⟩ | ⟨f, hf, hact⟩ := withInstance_eq_next.mp h
    · exact ⟨_, _, .unchanged _, rfl⟩
    · exact ⟨_, _, .free (by simp [hf]), respond_eq_next.mp hact⟩

/-! ### What an effect leaves unchanged -/

/-- The addresses not given read as before, and `CAP` and `K` stay. -/
theorem Filter.setAll_frame {f f' : Filter} {is : List Nat} (h : f.setAll is = some f') :
    f'.cap = f.cap ∧ f'.k = f.k ∧ ∀ j, j ∉ is → Memory.read f'.bits j = Memory.read f.bits j := by
  obtain ⟨hcap, hk, hmem⟩ := Filter.of_setAll_eq_some h
  exact ⟨hcap, hk, fun j hj => by simp [Memory.read, hmem, hj]⟩

section
variable {i : Instr} {s t : State}

theorem Effect.acc_eq (h : Effect s i t) (hi : i.opcode ∉ [Opcode.hinit, Opcode.hbyte]) : t.acc = s.acc := by
  cases h with
  | unchanged | new | add | free => rfl
  | hinit | hbyte => simp [Instr.opcode] at hi

theorem Effect.filter_eq (h : Effect s i t) (hi : i.opcode ∉ [Opcode.new, Opcode.add, Opcode.free]) :
    t.filter = s.filter := by
  cases h with
  | unchanged | hinit | hbyte => rfl
  | new | add | free => simp [Instr.opcode] at hi

theorem Effect.filter_eq_of_new (h : Effect s i t) (hi : i.opcode = .new) (hs : s.filter.isSome) :
    t.filter = s.filter := by
  cases h with
  | unchanged | hinit | hbyte => rfl
  | new n k hnone => simp [hnone] at hs
  | add | free => cases hi

theorem Effect.isSome_filter_of_add (h : Effect s i t) (hi : i.opcode = .add) :
    t.filter.isSome = s.filter.isSome := by
  cases h with
  | unchanged | hinit | hbyte => rfl
  | add x f f' hf => simp [hf]
  | new | free => cases hi

theorem Effect.add_frame {x : Word} {f f' : Filter} (h : Effect s (.add x) t) (hf : s.filter = some f)
    (hf' : t.filter = some f') :
    f'.cap = f.cap ∧ f'.k = f.k ∧ ∀ j, j ∉ f.addresses x → Memory.read f'.bits j = Memory.read f.bits j := by
  cases h with
  | unchanged =>
    obtain rfl : f = f' := Option.some.inj (hf.symm.trans hf')
    exact ⟨rfl, rfl, fun _ _ => rfl⟩
  | add _ g g' hg hset =>
    obtain rfl : g = f := Option.some.inj (hg.symm.trans hf)
    obtain rfl : g' = f' := Option.some.inj hf'
    exact Filter.setAll_frame hset

end

/-! ### The statements -/

/-- Settles O17: the pins, the host and the parameter by the shape of every answer, `ACC` and the filter by the
effects an instruction can have. -/
theorem frameOfEveryInstruction : Obligations.FrameOfEveryInstruction := by
  intro i s s' h
  constructor
  · obtain ⟨a, f, r, rfl⟩ := exec_next_shape h
    exact ⟨rfl, rfl, rfl, rfl, rfl, rfl, rfl⟩
  · obtain ⟨t, r, ht, rfl⟩ := exec_next_effect h
    refine ⟨ht.acc_eq, ht.filter_eq, ht.filter_eq_of_new, ht.isSome_filter_of_add, ?_⟩
    rintro x f f' rfl hf hf'
    exact ht.add_frame hf hf'

/-- Settles O11: each field of `State.reset` is the literal the rule gives. -/
theorem resetState : Obligations.ResetState :=
  ⟨rfl, rfl, rfl, rfl, rfl⟩

end Sys2Proof.Machine

/-! PROOFS. Command words: the fields as arithmetic, the bits a command uses, and decode and encode against each other
(30_encoding R60 to R65, R70, R73). -/

namespace Sys2Proof

/-! ### The fields of a word -/

theorem toNat_opField (w : CommandWord) : (opField w).toNat = w.toNat / 2 ^ 128 := by
  have := w.isLt
  simp only [opField, BitVec.extractLsb'_toNat, Nat.shiftRight_eq_div_pow]
  omega

theorem toNat_aField (w : CommandWord) : (aField w).toNat = w.toNat / 2 ^ 64 % 2 ^ 64 := by
  simp only [aField, BitVec.extractLsb'_toNat, Nat.shiftRight_eq_div_pow]

theorem toNat_bField (w : CommandWord) : (bField w).toNat = w.toNat % 2 ^ 64 := by
  simp [bField, BitVec.extractLsb'_toNat]

theorem byteOperand_eq_ofNat (a : Word) : byteOperand a = BitVec.ofNat 8 (a.toNat % 256) := by
  apply BitVec.eq_of_toNat_eq
  simp [byteOperand, BitVec.extractLsb'_toNat]

@[simp] theorem opField_and (w w' : CommandWord) : opField (w &&& w') = opField w &&& opField w' :=
  BitVec.extractLsb'_and

@[simp] theorem aField_and (w w' : CommandWord) : aField (w &&& w') = aField w &&& aField w' :=
  BitVec.extractLsb'_and

@[simp] theorem bField_and (w w' : CommandWord) : bField (w &&& w') = bField w &&& bField w' :=
  BitVec.extractLsb'_and

theorem packCommand_and (op op' : Byte) (a b a' b' : Word) :
    packCommand op a b &&& packCommand op' a' b' = packCommand (op &&& op') (a &&& a') (b &&& b') := by
  rw [← packCommand_fields (packCommand op a b &&& packCommand op' a' b')]
  simp

/-! ### The bits a command uses -/

/-- The bits of field `A` a command with this opcode uses (30_encoding R63). -/
def Opcode.usedA : Opcode → Word
  | .hinit | .hget | .count | .free => 0#64
  | .hbyte => 0xFF#64
  | .new | .add | .present => BitVec.allOnes 64

/-- The bits of field `B` a command with this opcode uses (30_encoding R63). -/
def Opcode.usedB : Opcode → Word
  | .new => BitVec.allOnes 64
  | .hinit | .hbyte | .hget | .add | .present | .count | .free => 0#64

theorem Opcode.usedBits_eq (o : Opcode) : o.usedBits = packCommand (BitVec.allOnes 8) o.usedA o.usedB := by
  cases o <;> decide

/-- The used bits of a packed word are the whole opcode and the used bits of each field. -/
theorem packCommand_and_usedBits (o : Opcode) (op : Byte) (a b : Word) :
    packCommand op a b &&& o.usedBits = packCommand op (a &&& o.usedA) (b &&& o.usedB) := by
  rw [o.usedBits_eq, packCommand_and, BitVec.and_allOnes]

@[simp] theorem opField_and_usedBits (w : CommandWord) (o : Opcode) : opField (w &&& o.usedBits) = opField w := by
  rw [opField_and, o.usedBits_eq, opField_packCommand, BitVec.and_allOnes]

theorem byteOperand_and_mask (a : Word) : byteOperand (a &&& 0xFF#64) = byteOperand a := by
  have : byteOperand 0xFF#64 = BitVec.allOnes 8 := by decide
  calc byteOperand (a &&& 0xFF#64) = byteOperand a &&& byteOperand 0xFF#64 := BitVec.extractLsb'_and
    _ = byteOperand a := by rw [this, BitVec.and_allOnes]

theorem setWidth_byteOperand (a : Word) : (byteOperand a).setWidth 64 = a &&& 0xFF#64 := by
  apply BitVec.eq_of_toNat_eq
  have hmask : a.toNat &&& (0xFF#64).toNat = a.toNat % 256 := Nat.and_two_pow_sub_one_eq_mod a.toNat 8
  rw [BitVec.toNat_and, hmask, byteOperand_eq_ofNat, BitVec.toNat_setWidth, BitVec.toNat_ofNat]
  omega

/-- A command is read from its used bits alone. -/
theorem instrOf_and_used (o : Opcode) (a b : Word) : instrOf o (a &&& o.usedA) (b &&& o.usedB) = instrOf o a b := by
  cases o with
  | hinit | hget | count | free => rfl
  | hbyte => simp only [instrOf, Opcode.usedA, byteOperand_and_mask]
  | new | add | present => simp only [instrOf, Opcode.usedA, Opcode.usedB, BitVec.and_allOnes]

/-- Changing ignored bits leaves the command a word decodes to. -/
theorem decode_and_usedBits {w : CommandWord} {o : Opcode} (h : opField w = o.code) :
    decode (w &&& o.usedBits) = decode w := by
  rw [decode_of_code h, decode_of_code (o := o) (by rw [opField_and_usedBits, h])]
  simp only [aField_and, bField_and, o.usedBits_eq, aField_packCommand, bField_packCommand, instrOf_and_used]

/-- What the encoder writes for a command read from fields: their used bits. -/
theorem operands_instrOf (o : Opcode) (a b : Word) :
    (instrOf o a b).operandA = a &&& o.usedA ∧ (instrOf o a b).operandB = b &&& o.usedB := by
  cases o with
  | hinit | hget | count | free => exact ⟨BitVec.and_zero.symm, BitVec.and_zero.symm⟩
  | hbyte => exact ⟨setWidth_byteOperand a, BitVec.and_zero.symm⟩
  | new =>
    exact ⟨(ofSint64_sint64 a).trans BitVec.and_allOnes.symm, (ofSint64_sint64 b).trans BitVec.and_allOnes.symm⟩
  | add | present => exact ⟨BitVec.and_allOnes.symm, BitVec.and_zero.symm⟩

/-- Encoding the command a word decodes to clears the ignored bits of the word. -/
theorem encode_of_decode {w : CommandWord} {i : Instr} (h : decode w = .ok i) :
    encode i = w &&& i.opcode.usedBits := by
  obtain ⟨hop, hi⟩ := decode_eq_ok.mp h
  obtain ⟨ha, hb⟩ := operands_instrOf i.opcode (aField w) (bField w)
  rw [← hi] at ha hb
  rw [encode, ha, hb, ← hop, ← packCommand_and_usedBits, packCommand_fields]

theorem and_eq_self_iff_and_not_eq_zero {n : Nat} (x m : BitVec n) : x &&& m = x ↔ x &&& ~~~m = 0 := by
  constructor
  · intro h
    rw [← h, BitVec.and_assoc, BitVec.and_not_self]
    exact BitVec.and_zero
  · intro h
    calc x &&& m = x &&& m ||| x &&& ~~~m := by rw [h]; exact BitVec.or_zero.symm
      _ = x &&& (m ||| ~~~m) := BitVec.and_or_distrib_left.symm
      _ = x := by rw [BitVec.or_not_self, BitVec.and_allOnes]

/-! ### Decode and encode -/

/-- The encoder writes zeros in the ignored bits, whatever the operands (30_encoding R64). -/
theorem encode_ignored_bits (i : Instr) : encode i &&& ~~~i.opcode.usedBits = 0 := by
  have hA : i.operandA &&& i.opcode.usedA = i.operandA := by
    cases i with
    | hinit | hget | count | free => exact BitVec.and_zero
    | hbyte b => rw [Instr.operandA, Instr.opcode, Opcode.usedA, ← setWidth_byteOperand, byteOperand_setWidth]
    | new | add | present => exact BitVec.and_allOnes
  have hB : i.operandB &&& i.opcode.usedB = i.operandB := by
    cases i with
    | new => exact BitVec.and_allOnes
    | hinit | hbyte | hget | add | present | count | free => exact BitVec.and_zero
  rw [← and_eq_self_iff_and_not_eq_zero, encode, packCommand_and_usedBits, hA, hB]

/-- A well-formed instruction is read back from its operands. -/
theorem instrOf_operands {i : Instr} (h : i.WellFormed) : instrOf i.opcode i.operandA i.operandB = i := by
  cases i with
  | hinit | hget | add | present | count | free => rfl
  | hbyte b => simp only [Instr.opcode, Instr.operandA, instrOf, byteOperand_setWidth]
  | new n k =>
    obtain ⟨hn, hk⟩ := Bool.and_eq_true_iff.mp h
    simp only [Instr.opcode, Instr.operandA, Instr.operandB, instrOf, sint64_ofSint64 hn, sint64_ofSint64 hk]

theorem decode_packCommand (o : Opcode) (a b : Word) : decode (packCommand o.code a b) = .ok (instrOf o a b) := by
  rw [decode_of_code (opField_packCommand _ _ _), aField_packCommand, bField_packCommand]

theorem decode_encode {i : Instr} (h : i.WellFormed) : decode (encode i) = .ok i := by
  rw [encode, decode_packCommand, instrOf_operands h]

theorem wellFormed_instrOf (o : Opcode) (a b : Word) : (instrOf o a b).WellFormed := by
  cases o with
  | new => exact Bool.and_eq_true_iff.mpr ⟨sint64_inSigned64 a, sint64_inSigned64 b⟩
  | hinit | hbyte | hget | add | present | count | free => rfl

theorem wellFormed_of_decode {w : CommandWord} {i : Instr} (h : decode w = .ok i) : i.WellFormed := by
  obtain ⟨-, hi⟩ := decode_eq_ok.mp h
  exact hi ▸ wellFormed_instrOf _ _ _

theorem Opcode.ofCode_eq_none (c : Byte) : Opcode.ofCode c = none ↔ ∀ o : Opcode, c ≠ o.code := by
  simp only [Option.eq_none_iff_forall_ne_some, ne_eq, Opcode.ofCode_eq_some]

theorem decode_of_illegal {w : CommandWord} (h : ∀ o : Opcode, opField w ≠ o.code) :
    decode w = .error (.illegalOpcode (opField w)) := by
  rw [decode, (Opcode.ofCode_eq_none _).mpr h]

theorem decode_packCommand_of_illegal {op : Byte} (h : ∀ o : Opcode, op ≠ o.code) (a b : Word) :
    decode (packCommand op a b) = .error (.illegalOpcode op) := by
  rw [decode_of_illegal ((opField_packCommand op a b).symm ▸ h), opField_packCommand]

/-- The decoder as the table of 30_encoding R70 over the integers that the fields are. -/
theorem decode_eq_table (w : CommandWord) :
    decode w =
      if (opField w).toNat = Opcode.hinit.code.toNat then .ok .hinit
      else if (opField w).toNat = Opcode.hbyte.code.toNat then .ok (.hbyte (BitVec.ofNat 8 ((aField w).toNat % 256)))
      else if (opField w).toNat = Opcode.hget.code.toNat then .ok .hget
      else if (opField w).toNat = Opcode.new.code.toNat then .ok (.new (sint64 (aField w)) (sint64 (bField w)))
      else if (opField w).toNat = Opcode.add.code.toNat then .ok (.add (BitVec.ofNat 64 (aField w).toNat))
      else if (opField w).toNat = Opcode.present.code.toNat then .ok (.present (BitVec.ofNat 64 (aField w).toNat))
      else if (opField w).toNat = Opcode.count.code.toNat then .ok .count
      else if (opField w).toNat = Opcode.free.code.toNat then .ok .free
      else .error (.illegalOpcode (BitVec.ofNat 8 (opField w).toNat)) := by
  simp only [BitVec.ofNat_toNat, BitVec.setWidth_eq]
  by_cases hw : ∃ o : Opcode, opField w = o.code
  · obtain ⟨o, ho⟩ := hw
    rw [decode_of_code ho, ho]
    cases o with
    | hinit | hget | new | add | present | count | free => rfl
    | hbyte => exact congrArg (fun b => Except.ok (Instr.hbyte b)) (byteOperand_eq_ofNat _)
  · push Not at hw
    have hne (o : Opcode) : (opField w).toNat ≠ o.code.toNat := fun h => hw o (BitVec.eq_of_toNat_eq h)
    rw [decode_of_illegal hw, if_neg (hne .hinit), if_neg (hne .hbyte), if_neg (hne .hget), if_neg (hne .new),
      if_neg (hne .add), if_neg (hne .present), if_neg (hne .count), if_neg (hne .free)]

/-- Words with the same assigned opcode and the same used bits decode alike (30_encoding R64). -/
theorem decode_congr_usedBits {w w' : CommandWord} {o : Opcode} (ho : opField w = o.code)
    (h : w &&& o.usedBits = w' &&& o.usedBits) : decode w = decode w' := by
  have ho' : opField w' = o.code := by rw [← opField_and_usedBits w' o, ← h, opField_and_usedBits, ho]
  rw [← decode_and_usedBits ho, h, decode_and_usedBits ho']

/-! ### The statements -/

/-- Settles O1: the table from the opcode map, the ignored bits and both round trips from the used bits of each
opcode. -/
theorem decodeAndEncodeAgree : Obligations.DecodeAndEncodeAgree := by
  refine ⟨fun w => ?_, fun w w' o => decode_congr_usedBits, fun i hi => ⟨decode_encode hi, encode_ignored_bits i⟩,
    fun w i hi => ⟨wellFormed_of_decode hi, ?_⟩⟩
  · rw [decode_eq_table, ← toNat_opField, ← toNat_aField, ← toNat_bField]
    rfl
  · rw [encode_of_decode hi, and_eq_self_iff_and_not_eq_zero]

/-- Settles O2: each worked word decodes, and is encoded, by evaluation; a word with an illegal opcode is rejected
whatever its operands. -/
theorem workedEncodings : Obligations.WorkedEncodings := by
  refine ⟨by decide, by decide, by decide, by decide, by decide, by decide, by decide, by decide, by decide, by decide,
    fun a b => ⟨?_, ?_⟩⟩
  · exact decode_packCommand_of_illegal (fun o => by cases o <;> decide) a b
  · exact decode_packCommand_of_illegal (fun o => by cases o <;> decide) a b

end Sys2Proof

/-! PROOFS. Performing a word: what of it and of the state the outcome depends on, and the response it presents
(30_encoding R61, R64, R65, R69). -/

namespace Sys2Proof.Machine

/-! ### What of the word matters -/

theorem perform_of_decode {w : CommandWord} {i : Instr} (h : decode w = .ok i) (s : State) :
    perform w s = exec i s := by
  simp only [perform, h]

theorem perform_of_error {w : CommandWord} {e : DecodeError} (h : decode w = .error e) (s : State) :
    perform w s = .next (s.reply { status := .illegalCommand, value := 0#64 }) := by
  simp only [perform, h, illegalCommand, raise]

theorem perform_encode {i : Instr} (h : i.WellFormed) (s : State) : perform (encode i) s = exec i s :=
  perform_of_decode (decode_encode h) s

theorem perform_packCommand (o : Opcode) (a b : Word) (s : State) :
    perform (packCommand o.code a b) s = exec (instrOf o a b) s :=
  perform_of_decode (decode_packCommand o a b) s

/-- Operands from which the same command is read are performed alike. -/
theorem perform_congr_operands {o : Opcode} {op : Byte} {a b a' b' : Word} (hop : op = o.code)
    (h : instrOf o a b = instrOf o a' b') (s : State) : perform (op ++ a ++ b) s = perform (op ++ a' ++ b') s := by
  subst hop
  exact (perform_packCommand o a b s).trans (h ▸ (perform_packCommand o a' b' s).symm)

/-! ### What of the state matters -/

/-- The block of `s` (its parameter, `ACC` and filter) behind the ports and the host of `p`. -/
def State.withPorts (s p : State) : State := { p with config := s.config, acc := s.acc, filter := s.filter }

/-- Apply a function to the next state of an outcome. -/
def mapNext (g : State → State) : Host.Outcome State Fault Refusal → Host.Outcome State Fault Refusal
  | .next s => .next (g s)
  | .fault r => .fault r
  | .refused r => .refused r

/-- The state `s'` after a command, seen behind the ports `p` that stood before it: its response is presented there. -/
def State.answeredAt (p s' : State) : State := s'.withPorts { p with rspPort := s'.rspPort }

theorem respond_withPorts (v : Word) (t p : State) :
    respond v (t.withPorts p) = mapNext p.answeredAt (respond v t) := rfl

theorem raise_withPorts (st : Status) (t p : State) :
    raise st (t.withPorts p) = mapNext p.answeredAt (raise st t) := rfl

theorem withInstance_withPorts {s p : State} {act act' : Filter → Host.Outcome State Fault Refusal}
    (h : ∀ f, act' f = mapNext p.answeredAt (act f)) :
    withInstance (s.withPorts p) act' = mapNext p.answeredAt (withInstance s act) := by
  unfold withInstance
  rw [show (s.withPorts p).filter = s.filter from rfl]
  cases s.filter with
  | none => rfl
  | some f => exact h f

/-- A meaning neither reads the ports or the host nor writes them, but for the response it presents. -/
theorem exec_withPorts (i : Instr) (s p : State) :
    exec i (s.withPorts p) = mapNext p.answeredAt (exec i s) := by
  cases i with
  | hinit | hget => rfl
  | hbyte b =>
    obtain ⟨v, hv, h⟩ := exec_hbyte_named b s
    obtain ⟨v', hv', h'⟩ := exec_hbyte_named b (s.withPorts p)
    obtain rfl : v' = v := hv'.trans hv.symm
    rw [h, h']
    rfl
  | new n k =>
    have hst : newStatus n k (s.withPorts p) = newStatus n k s := rfl
    by_cases hok : newStatus n k s = .ok
    · rw [exec_new_of_ok hok, exec_new_of_ok (hst.trans hok)]
      rfl
    · rw [exec_new_of_ne_ok hok, exec_new_of_ne_ok (hst ▸ hok), hst]
      rfl
  | add h =>
    refine withInstance_withPorts fun f => ?_
    cases f.setAll (f.addresses h) <;> rfl
  | present h =>
    refine withInstance_withPorts fun f => ?_
    cases f.testAll true (f.addresses h) <;> rfl
  | count | free => exact withInstance_withPorts fun f => rfl

theorem perform_withPorts (w : CommandWord) (s p : State) :
    perform w (s.withPorts p) = mapNext p.answeredAt (perform w s) := by
  cases hw : decode w with
  | ok i => rw [perform_of_decode hw, perform_of_decode hw, exec_withPorts]
  | error e => rw [perform_of_error hw, perform_of_error hw]; rfl

/-- The response that waits does not matter to the next command. -/
theorem perform_reply (w : CommandWord) (s : State) (r : Response) : perform w (s.reply r) = perform w s := by
  have h : (s.reply r).answeredAt = s.answeredAt := rfl
  calc perform w (s.reply r) = mapNext (s.reply r).answeredAt (perform w s) := perform_withPorts w s (s.reply r)
    _ = perform w s := by rw [h]; exact (perform_withPorts w s s).symm

/-! ### What an answer is -/

/-- A command answers a result, or an error status with value 0 on the state as it was (30_encoding R61;
60_exceptions R146). -/
def OkOrError (s s' : State) : Prop :=
  (∃ (t : State) (v : Word), s' = t.reply { status := .ok, value := v }) ∨
    ∃ st, st ≠ .ok ∧ s' = s.reply { status := st, value := 0#64 }

theorem OkOrError.of_respond {v : Word} {s t s' : State} (h : respond v t = .next s') : OkOrError s s' :=
  .inl ⟨t, v, respond_eq_next.mp h⟩

theorem OkOrError.of_raise {st : Status} {s s' : State} (hst : st ≠ .ok) (h : raise st s = .next s') :
    OkOrError s s' :=
  .inr ⟨st, hst, raise_eq_next.mp h⟩

theorem OkOrError.of_withInstance {s s' : State} {act : Filter → Host.Outcome State Fault Refusal}
    (h : withInstance s act = .next s') (hact : ∀ f, act f = .next s' → OkOrError s s') : OkOrError s s' := by
  obtain ⟨-, hs'⟩ | ⟨f, -, hf⟩ := withInstance_eq_next.mp h
  · exact .inr ⟨.notConstructed, by decide, hs'⟩
  · exact hact f hf

theorem exec_next_ok_or_error {i : Instr} {s s' : State} (h : exec i s = .next s') : OkOrError s s' := by
  cases i with
  | hinit | hbyte | hget => exact .of_respond h
  | new n k =>
    by_cases hok : newStatus n k s = .ok
    · exact .of_respond (exec_new_of_ok hok ▸ h)
    · exact .of_raise hok (exec_new_of_ne_ok hok ▸ h)
  | add x | present x =>
    refine .of_withInstance h fun f hf => ?_
    split at hf
    · cases hf
    · exact .of_respond hf
  | count | free => exact .of_withInstance h fun f hf => .of_respond hf

theorem perform_next_ok_or_error {w : CommandWord} {s s' : State} (h : perform w s = .next s') : OkOrError s s' := by
  cases hw : decode w with
  | ok i => exact exec_next_ok_or_error (perform_of_decode hw s ▸ h)
  | error e => exact .of_raise (by decide) (perform_of_error hw s ▸ h)

/-- Performing a word writes `ACC`, the filter and the response port only. -/
theorem perform_next_shape {w : CommandWord} {s s' : State} (h : perform w s = .next s') : OnlyBlockWritten s s' := by
  cases hw : decode w with
  | ok i => exact exec_next_shape (perform_of_decode hw s ▸ h)
  | error e => exact .of_raise (perform_of_error hw s ▸ h)

/-- The response word is the integer `STATUS * 2^64 + VALUE` (30_encoding R61). -/
theorem Response.toNat_word (r : Response) : r.word.toNat = r.status.code.toNat * 2 ^ 64 + r.value.toNat := by
  rw [Response.word, BitVec.toNat_append, ← Nat.shiftLeft_add_eq_or_of_lt r.value.isLt, Nat.shiftLeft_eq]

theorem Status.code_eq_zero_iff (st : Status) : st.code = 0x00#8 ↔ st = .ok := by
  cases st <;> decide

/-! ### The pseudo-instruction `FNV1` -/

theorem performAll_cons_of_next {w : CommandWord} {s s' : State} (h : perform w s = .next s')
    (ws : List CommandWord) : performAll (w :: ws) s = performAll ws s' := by
  simp only [performAll, h]

/-- `HBYTE`s of `bs` and an `HGET` after them: `bs` is absorbed into `ACC`, and `ACC` is the response. -/
theorem performAll_hbytes_hget (bs : List Byte) (s : State) :
    performAll ((bs.map Instr.hbyte ++ [Instr.hget]).map encode) s =
      .next ((s.setAcc (bs.foldl fnvStep s.acc)).reply { status := .ok, value := bs.foldl fnvStep s.acc }) := by
  induction bs generalizing s with
  | nil => exact performAll_cons_of_next (perform_encode (i := .hget) rfl s) []
  | cons b bs ih =>
    obtain ⟨v, hv, hexec⟩ := exec_hbyte_named b s
    have hperform : perform (encode (.hbyte b)) s = respond v (s.setAcc v) := by rw [perform_encode rfl, hexec]
    rw [List.foldl_cons, ← hv]
    exact (performAll_cons_of_next hperform _).trans (ih _)

/-! ### The statements -/

/-- Settles O3: a command is read from its used bits alone, and performed as it is read. -/
theorem unusedOperandBitsAreIgnored : Obligations.UnusedOperandBitsAreIgnored := by
  refine ⟨fun a b a' b' s => ?_, encode_ignored_bits, fun o a b => ⟨instrOf o a b, ?_, opcode_instrOf o a b⟩⟩
  · refine ⟨perform_congr_operands (o := .hinit) rfl (by rfl) s, perform_congr_operands (o := .hget) rfl (by rfl) s,
      perform_congr_operands (o := .count) rfl (by rfl) s, perform_congr_operands (o := .free) rfl (by rfl) s,
      perform_congr_operands (o := .add) rfl (by rfl) s, perform_congr_operands (o := .present) rfl (by rfl) s,
      fun h => ?_⟩
    refine perform_congr_operands (o := .hbyte) rfl ?_ s
    rw [instrOf, instrOf, byteOperand_eq_ofNat, byteOperand_eq_ofNat, h]
  · exact decode_packCommand o a b

/-- Settles O5: the fields by division, the codes by cases, and the value of an error by what an answer can be. -/
theorem responseWordAndErrorValue : Obligations.ResponseWordAndErrorValue := by
  refine ⟨fun r => ?_, Status.code_eq_zero_iff, fun w s s' r h hr hst => ?_⟩
  · have := r.value.isLt
    rw [r.toNat_word]
    omega
  · obtain ⟨t, v, rfl⟩ | ⟨st, -, rfl⟩ := perform_next_ok_or_error h
    · cases hr
      exact absurd rfl hst
    · cases hr
      rfl

/-- Settles O28: `HINIT` sets `ACC` to the basis, and the rest absorbs the bytes into it. -/
theorem pseudoInstructionComputesFnv : Obligations.PseudoInstructionComputesFnv := by
  refine fun bs s => ⟨rfl, by simp [expandFnv1], ?_⟩
  have hinit : perform (encode .hinit) s = respond fnvOffsetBasis (s.setAcc fnvOffsetBasis) := by
    rw [perform_encode rfl, exec_hinit]
  exact (performAll_cons_of_next hinit _).trans (performAll_hbytes_hget bs _)

/-- Settles O6, by evaluation of each line. -/
theorem assemblerReadsTheSpecsLines : Obligations.AssemblerReadsTheSpecsLines := by
  unfold Obligations.AssemblerReadsTheSpecsLines
  decide +kernel

end Sys2Proof.Machine

/-! PROOFS. A well-formed block and what performing keeps of it, the events at the ports, and whole histories over the
ports (30_encoding R65, R71; 43_properties R134; 70_reset R164). -/

namespace Sys2Proof.Machine

/-! ### A well-formed block -/

/-- Where `NEW` succeeds, both operands are positive and the capacity fits (42_filter R101). -/
theorem bounds_of_newStatus_ok {n k : Int} {s : State} (h : newStatus n k s = .ok) :
    1 ≤ n ∧ 1 ≤ k ∧ n.toNat ≤ s.config.bitsMax := by
  rcases newStatus_cases n k s with ⟨-, h'⟩ | ⟨-, -, -, h'⟩ | ⟨-, -, -, -, h'⟩ | ⟨hn, hk, -, hfits, -⟩
  · simp [h] at h'
  · simp [h] at h'
  · simp [h] at h'
  · exact ⟨hn, hk, hfits⟩

/-- The filter that a well-formed `NEW` makes is well formed. -/
theorem Filter.wf_of_newStatus_ok {n k : Int} {s : State} (hc : s.config.wf) (hi : (Instr.new n k).WellFormed)
    (hok : newStatus n k s = .ok) : Filter.wf { cap := n.toNat, k := k.toNat, bits := [] } s.config := by
  obtain ⟨-, hmax⟩ := hc
  obtain ⟨hn, hk, hfits⟩ := bounds_of_newStatus_ok hok
  obtain ⟨-, hsigned⟩ := Bool.and_eq_true_iff.mp hi
  obtain ⟨-, hkmax⟩ := (inSigned64_iff k).mp hsigned
  refine ⟨⟨?_, ?_⟩, ⟨?_, ?_⟩, ⟨?_, hfits⟩, Memory.wf_zeros, by simp⟩
  · exact (Int.le_toNat (by omega)).mpr hn
  · exact hfits.trans hmax
  · exact (Int.le_toNat (by omega)).mpr hk
  · show k.toNat ≤ 2 ^ 63 - 1
    omega
  · exact (Int.le_toNat (by omega)).mpr hn

/-- Setting derived bits keeps a filter well formed. -/
theorem Filter.wf_of_setAll {f f' : Filter} {c : Config} {x : Word} (hf : f.wf c)
    (hset : f.setAll (f.addresses x) = some f') : f'.wf c := by
  obtain ⟨hcap, hk, hm, hcanon, hbits⟩ := hf
  obtain ⟨b, hb, hmem, hwf⟩ := Filter.setAll_spec f (f.addresses x) (f.addresses_lt x hm.1)
  obtain rfl : { f with bits := b } = f' := Option.some.inj (hb.symm.trans hset)
  refine ⟨hcap, hk, hm, hwf hcanon, fun j hj => ?_⟩
  rcases (hmem j).mp hj with hj | hj
  · exact f.addresses_lt x hm.1 j hj
  · exact hbits j hj

/-- Every effect of a well-formed instruction keeps the block well formed (43_properties R134). -/
theorem Effect.blockWf {i : Instr} {s t : State} (h : Effect s i t) (hi : i.WellFormed) (hs : s.BlockWf) :
    t.BlockWf := by
  obtain ⟨hconfig, hfilter⟩ := hs
  refine ⟨?_, fun g hg => ?_⟩
  · cases h <;> exact hconfig
  · cases h with
    | unchanged | hinit | hbyte => exact hfilter g hg
    | new n k _ hok =>
      cases hg
      exact Filter.wf_of_newStatus_ok (s := s) hconfig hi hok
    | add x f f' hf hset =>
      cases hg
      exact Filter.wf_of_setAll (hfilter f hf) hset
    | free => cases hg

/-- On a well-formed block every instruction answers. -/
theorem exec_answers (i : Instr) {s : State} (hs : s.BlockWf) : ∃ s', exec i s = .next s' := by
  obtain ⟨-, hfilter⟩ := hs
  by_cases hi : i.opcode ∈ [Opcode.add, Opcode.present, Opcode.count, Opcode.free]
  · cases hf : s.filter with
    | none => exact ⟨_, exec_of_none hf hi⟩
    | some f =>
      obtain ⟨-, -, ⟨hm, -⟩, -⟩ := hfilter f hf
      cases i with
      | hinit | hbyte | hget | new => simp [Instr.opcode] at hi
      | add x =>
        obtain ⟨b, hexec, -⟩ := exec_add_of_some (h := x) hf hm
        exact ⟨_, hexec⟩
      | present x => exact ⟨_, exec_present_of_some hf hm⟩
      | count => exact ⟨_, exec_count_of_some hf⟩
      | free => exact ⟨_, exec_free_of_some hf⟩
  · cases i with
    | hinit | hbyte | hget => exact ⟨_, rfl⟩
    | new n k =>
      by_cases hok : newStatus n k s = .ok
      · exact ⟨_, exec_new_of_ok hok⟩
      · exact ⟨_, exec_new_of_ne_ok hok⟩
    | add | present | count | free => simp [Instr.opcode] at hi

/-- Performing a word on a well-formed block answers, and leaves the block well formed (43_properties R134). -/
theorem perform_answers (w : CommandWord) {s : State} (hs : s.BlockWf) :
    ∃ s', perform w s = .next s' ∧ s'.BlockWf := by
  cases hw : decode w with
  | error e => exact ⟨_, perform_of_error hw s, hs⟩
  | ok i =>
    obtain ⟨s', h⟩ := exec_answers i hs
    obtain ⟨t, r, ht, rfl⟩ := exec_next_effect h
    exact ⟨_, (perform_of_decode hw s).trans h, ht.blockWf (wellFormed_of_decode hw) hs⟩

/-! ### The events at the ports -/

/-- A word presented is accepted when no response waits and `rst = 0` (30_encoding R71). -/
theorem portTurn_of_accept {s : State} {w : CommandWord} (hrst : s.rst = false) (hrsp : s.rspPort = none)
    (hcmd : s.cmdPort = some w) : portTurn s = (some w, s.acceptCommand) := by
  simp [portTurn, State.rspValid, State.accepted, State.cmdReady, hrst, hrsp, hcmd]

theorem step_of_accept {s : State} {w : CommandWord} (hrst : s.rst = false) (hrsp : s.rspPort = none)
    (hcmd : s.cmdPort = some w) : step s = perform w s.acceptCommand := by
  rw [step, portTurn_of_accept hrst hrsp hcmd]

/-- A response that waits is taken when the host is ready (30_encoding R71). -/
theorem step_of_take {s : State} {r : Response} (hrst : s.rst = false) (hrsp : s.rspPort = some r)
    (hready : s.rspReady = true) : step s = .next s.takeResponse := by
  simp [step, portTurn, State.rspValid, hrst, hrsp, hready]

/-- The host changes a pin when no handshake is possible: in reset, while a response waits untaken, and while there is
neither a response nor a word. -/
theorem step_of_no_handshake {s : State}
    (h : s.rst = true ∨ (s.rspPort.isSome ∧ s.rspReady = false) ∨ (s.rspPort = none ∧ s.cmdPort = none)) :
    step s = .next s.hostTurn := by
  obtain hrst | ⟨hrsp, hready⟩ | ⟨hrsp, hcmd⟩ := h
  · simp [step, portTurn, State.rspValid, State.accepted, State.cmdReady, hrst]
  · simp [step, portTurn, State.rspValid, State.accepted, State.cmdReady, hrsp, hready, ← Option.not_isSome]
  · simp [step, portTurn, State.rspValid, State.accepted, State.cmdReady, hrsp, hcmd]

theorem hostTurn_of_cons {s : State} {a : HostAction} {rest : List HostAction} (h : s.host = a :: rest) :
    s.hostTurn = { s with host := rest }.applyAction a := by
  rw [State.hostTurn, h]

/-- The host's turn takes no response, and it keeps the block or resets it by the level 1 or from the level 1. -/
theorem hostTurn_cases (s : State) :
    s.hostTurn.taken = s.taken ∧
      ((s.hostTurn.rspPort = s.rspPort ∧ s.hostTurn.acc = s.acc ∧ s.hostTurn.filter = s.filter) ∨
        (s.hostTurn.rspPort = none ∧ (s.hostTurn.rst = true ∨ s.rst = true))) := by
  cases hh : s.host with
  | nil => simp [State.hostTurn, hh]
  | cons a rest =>
    rw [hostTurn_of_cons hh]
    cases a with
    | driveCommand | driveRspReady => exact ⟨rfl, .inl ⟨rfl, rfl, rfl⟩⟩
    | driveRst level =>
      by_cases hl : (level || s.rst) = true
      · rw [State.applyAction, State.driveRst, if_pos hl]
        exact ⟨rfl, .inr ⟨rfl, Bool.or_eq_true_iff.mp hl⟩⟩
      · rw [State.applyAction, State.driveRst, if_neg hl]
        exact ⟨rfl, .inl ⟨rfl, rfl, rfl⟩⟩

/-! ### Whole histories -/

theorem stepN_succ_of_next {s s' : State} (h : step s = .next s') (n : Nat) : stepN (n + 1) s = stepN n s' := by
  rw [stepN, h]

/-- The responses after a word that answers: its own, then those of the other words. -/
theorem responses_cons_of_next {w : CommandWord} {s s' : State} (h : perform w s = .next s') (ws : List CommandWord) :
    responses (w :: ws) s = s'.rspPort.toList ++ responses ws s' := by
  simp only [responses, h]

/-- Nothing is presented, neither a word nor a response, `rst = 0`, and the host is ready to take responses. -/
def State.IdleReady (p : State) : Prop :=
  p.rst = false ∧ p.rspPort = none ∧ p.cmdPort = none ∧ p.rspReady = true

/-- The ports `p`, idle, after the host has taken the responses `rs` and has the actions `rest` left. -/
def State.served (p : State) (rest : List HostAction) (rs : List Response) : State :=
  { p with host := rest, taken := p.taken ++ rs, rspPort := none, cmdPort := none }

theorem State.IdleReady.served {p : State} (hp : p.IdleReady) (rest : List HostAction) (rs : List Response) :
    (p.served rest rs).IdleReady := by
  obtain ⟨hrst, -, -, hready⟩ := hp
  exact ⟨hrst, rfl, rfl, hready⟩

theorem State.served_served (p : State) (rest rest' : List HostAction) (rs rs' : List Response) :
    (p.served rest rs).served rest' rs' = p.served rest' (rs ++ rs') := by
  simp only [State.served, List.append_assoc]

theorem State.IdleReady.served_nil {p : State} (hp : p.IdleReady) : p.served p.host [] = p := by
  obtain ⟨-, hrsp, hcmd, -⟩ := hp
  simp only [State.served, List.append_nil, ← hrsp, ← hcmd]

/-- Three steps for one word: the host presents it, the block performs it, the host takes its response (log entry 4). -/
theorem stepN_three {w : CommandWord} {u u' p : State} {rest : List HostAction} (hp : p.IdleReady)
    (hhost : p.host = .driveCommand (some w) :: rest) (hw : perform w u = .next u') (n : Nat) :
    stepN (n + 3) (u.withPorts p) = stepN n (u'.withPorts (p.served rest u'.rspPort.toList)) := by
  obtain ⟨hrst, hrsp, hcmd, hready⟩ := hp
  obtain ⟨r, hr⟩ : ∃ r, u'.rspPort = some r := by
    obtain ⟨a, f, r, rfl⟩ := perform_next_shape hw
    exact ⟨r, rfl⟩
  have hpresent : step (u.withPorts p) = .next (u.withPorts { p with host := rest, cmdPort := some w }) :=
    (step_of_no_handshake (s := u.withPorts p) (.inr (.inr ⟨hrsp, hcmd⟩))).trans
      (congrArg Host.Outcome.next (hostTurn_of_cons (s := u.withPorts p) hhost))
  have haccept : step (u.withPorts { p with host := rest, cmdPort := some w }) =
      .next (u'.withPorts { p with host := rest, cmdPort := none, rspPort := u'.rspPort }) :=
    calc step (u.withPorts { p with host := rest, cmdPort := some w })
        = perform w (u.withPorts { p with host := rest, cmdPort := none }) := step_of_accept hrst hrsp rfl
      _ = mapNext _ (perform w u) := perform_withPorts w u _
      _ = _ := by rw [hw]; rfl
  have htake : step (u'.withPorts { p with host := rest, cmdPort := none, rspPort := u'.rspPort }) =
      .next (u'.withPorts (p.served rest u'.rspPort.toList)) :=
    step_of_take hrst hr hready
  rw [stepN_succ_of_next hpresent, stepN_succ_of_next haccept, stepN_succ_of_next htake]

/-- From idle ports, three steps per word leave the block as performing the words leaves it, and hand the host their
responses. -/
theorem stepN_delivers (ws : List CommandWord) (rest : List HostAction) {u p : State} (hu : u.BlockWf)
    (hp : p.IdleReady) (hhost : p.host = ws.map (fun w => .driveCommand (some w)) ++ rest) :
    ∃ t, performAll ws u = .next t ∧ (responses ws u).length = ws.length ∧
      stepN (3 * ws.length) (u.withPorts p) = .next (t.withPorts (p.served rest (responses ws u))) := by
  induction ws generalizing u p with
  | nil =>
    obtain rfl : p.host = rest := hhost
    exact ⟨u, rfl, rfl, by rw [responses, hp.served_nil]; rfl⟩
  | cons w ws ih =>
    obtain ⟨u', hw, hu'⟩ := perform_answers w hu
    obtain ⟨t, hall, hlen, hsteps⟩ := ih hu' (hp.served _ u'.rspPort.toList) rfl
    refine ⟨t, (performAll_cons_of_next hw ws).trans hall, ?_, ?_⟩
    · obtain ⟨a, f, r, rfl⟩ := perform_next_shape hw
      simp [responses_cons_of_next hw, hlen]
    · rw [List.length_cons, Nat.mul_succ, stepN_three hp hhost hw, responses_cons_of_next hw, ← State.served_served]
      exact hsteps

/-! ### The statements -/

/-- Settles O9: the block of the ports runs as `performAll` does, and the ports add the three steps of a word. -/
theorem portsDeliverTheHistory : Obligations.PortsDeliverTheHistory := by
  intro ws rest s hinv hrst hrsp hcmd hready hhost
  obtain ⟨hblock, -⟩ := hinv
  obtain ⟨t, hall, hlen, hsteps⟩ := stepN_delivers ws rest hblock ⟨hrst, hrsp, hcmd, hready⟩ hhost
  exact ⟨_, t, hsteps, hall, rfl, rfl, rfl, rfl, rfl, rfl, hlen⟩

/-- Settles O4: an illegal word is rejected by the decoder and answered by `raise`, and a response that waits does not
matter to the next word. -/
theorem illegalOpcodeIsAnsweredAndChangesNothing : Obligations.IllegalOpcodeIsAnsweredAndChangesNothing := by
  refine ⟨fun op a b s hop => ?_, fun w s hrst hrsp hcmd => ?_, by decide +kernel⟩
  · have hne (o : Opcode) : op ≠ o.code := by
      rintro rfl
      cases o <;> exact hop (by decide)
    have hperform : perform (packCommand op a b) s = .next (s.reply { status := .illegalCommand, value := 0#64 }) :=
      perform_of_error (decode_packCommand_of_illegal hne a b) s
    refine ⟨hperform, fun w s' h => ?_⟩
    cases hperform.symm.trans h
    exact perform_reply w s _
  · rw [portTurn_of_accept hrst hrsp hcmd]

/-- Settles O7: the port accepts the word, and the word is performed as it decodes. -/
theorem stepPerformsThePresentedWord : Obligations.StepPerformsThePresentedWord := by
  refine ⟨fun s w i hrst hrsp hcmd hw => ?_, fun s w e hrst hrsp hcmd hw => ?_, fun s nbits w i hw => ?_⟩
  · exact (step_of_accept hrst hrsp hcmd).trans (perform_of_decode hw _)
  · exact (step_of_accept hrst hrsp hcmd).trans (perform_of_error hw _)
  · have hdecode : decode (tableWord nbits w) = .ok i := by
      unfold decodeTableWord at hw
      cases hd : decode (tableWord nbits w) <;> simp_all [Except.toOption]
    exact (step_of_accept (s := s.withFetchWord nbits w) rfl rfl rfl).trans (perform_of_decode hdecode _)

/-- Settles O8: which event a step is, by the response that waits, the host's readiness and the word presented. -/
theorem oneResponsePerAcceptedCommand : Obligations.OneResponsePerAcceptedCommand := by
  constructor
  · intro s s' r hrst hrsp h
    cases hready : s.rspReady with
    | true =>
      cases (step_of_take hrst hrsp hready).symm.trans h
      exact .inr (.inl ⟨rfl, by simp [hrsp], rfl, rfl, rfl, rfl⟩)
    | false =>
      cases (step_of_no_handshake (.inr (.inl ⟨by simp [hrsp], hready⟩))).symm.trans h
      obtain ⟨htaken, ⟨hport, hacc, hfilter⟩ | ⟨hport, hreset⟩⟩ := hostTurn_cases s
      · exact .inl ⟨hport.trans hrsp, htaken, hacc, hfilter, rfl⟩
      · exact .inr (.inr ⟨hport, htaken, hreset.resolve_right (by simp [hrst])⟩)
  · intro s s' hrsp h
    by_cases hidle : s.rst = true ∨ s.cmdPort = none
    · cases (step_of_no_handshake (hidle.imp_right fun hcmd => .inr ⟨hrsp, hcmd⟩)).symm.trans h
      obtain ⟨htaken, ⟨hport, -⟩ | ⟨hport, -⟩⟩ := hostTurn_cases s
      · exact ⟨htaken, .inl ⟨hport.trans hrsp, hidle⟩⟩
      · exact ⟨htaken, .inl ⟨hport, hidle⟩⟩
    · obtain ⟨hrst, hcmd⟩ := not_or.mp hidle
      obtain ⟨w, hcmd⟩ := Option.ne_none_iff_exists'.mp hcmd
      rw [Bool.not_eq_true] at hrst
      have hperform := (step_of_accept hrst hrsp hcmd).symm.trans h
      obtain ⟨a, f, r, rfl⟩ := perform_next_shape hperform
      exact ⟨rfl, .inr ⟨w, r, hrst, hcmd, rfl, rfl, hperform⟩⟩

end Sys2Proof.Machine

/-! PROOFS. The accumulator: one FNV-1 step as arithmetic, what each word does to `ACC`, the stream law, and that hash
commands and filter commands do not meet (40_hash R80 to R88). -/

namespace Sys2Proof.Machine

/-! ### The hash function -/

/-- One FNV-1 step over the integers (40_hash R82). -/
theorem fnvStep_eq_ofNat (acc : Word) (b : Byte) :
    fnvStep acc b = BitVec.ofNat 64 (acc.toNat * 1099511628211) ^^^ BitVec.ofNat 64 b.toNat := by
  rw [fnvStep, fnvPrime, BitVec.ofNat_mul, BitVec.ofNat_toNat, BitVec.setWidth_eq, BitVec.ofNat_toNat]

theorem fnv1_concat (bs : List Byte) (b : Byte) : fnv1 (bs ++ [b]) = fnvStep (fnv1 bs) b :=
  List.foldl_concat fnvStep fnvOffsetBasis b bs

theorem hashBytes_cons_of_hbyte {w : CommandWord} {b : Byte} (h : decode w = .ok (.hbyte b)) (ws : List CommandWord) :
    hashBytes (w :: ws) = b :: hashBytes ws := by
  simp only [hashBytes, h]

theorem hashBytes_cons_of_ne {w : CommandWord} (h : ∀ b, decode w ≠ .ok (.hbyte b)) (ws : List CommandWord) :
    hashBytes (w :: ws) = hashBytes ws := by
  rw [hashBytes]
  split
  · exact absurd ‹_› (h _)
  · rfl

/-! ### What a word does to `ACC` -/

/-- `HBYTE` steps `ACC` and answers it. -/
theorem exec_hbyte_eq_next (b : Byte) (s : State) {v : Word} (hv : fnvStep s.acc b = v) :
    exec (.hbyte b) s = .next { s with acc := v, rspPort := some { status := .ok, value := v } } := by
  rw [exec_hbyte, hv]
  rfl

/-- Any other word than `HINIT` and `HBYTE` leaves `ACC` alone (40_hash R85). -/
theorem perform_next_acc_eq {w : CommandWord} {s s' : State} (h : perform w s = .next s')
    (hinit : decode w ≠ .ok .hinit) (hbyte : ∀ b, decode w ≠ .ok (.hbyte b)) : s'.acc = s.acc := by
  cases hw : decode w with
  | error e =>
    cases (perform_of_error hw s).symm.trans h
    rfl
  | ok i =>
    obtain ⟨t, r, ht, rfl⟩ := exec_next_effect (perform_of_decode hw s ▸ h)
    refine ht.acc_eq ?_
    cases i with
    | hinit => exact absurd hw hinit
    | hbyte b => exact absurd hw (hbyte b)
    | hget | new | add | present | count | free => simp [Instr.opcode]

/-- Words without a `HINIT` absorb their hash bytes into `ACC`, from whatever value it has. -/
theorem performAll_absorbs (ws : List CommandWord) {s : State} (hs : s.BlockWf)
    (hws : ∀ w ∈ ws, decode w ≠ .ok .hinit) :
    ∃ s', performAll ws s = .next s' ∧ s'.acc = (hashBytes ws).foldl fnvStep s.acc := by
  induction ws generalizing s with
  | nil => exact ⟨s, rfl, rfl⟩
  | cons w ws ih =>
    obtain ⟨hw, hws⟩ := List.forall_mem_cons.mp hws
    obtain ⟨t, ht, htwf⟩ := perform_answers w hs
    obtain ⟨s', hall, hacc⟩ := ih htwf hws
    refine ⟨s', (performAll_cons_of_next ht ws).trans hall, hacc.trans ?_⟩
    by_cases hb : ∃ b, decode w = .ok (.hbyte b)
    · obtain ⟨b, hb⟩ := hb
      have htacc : t.acc = fnvStep s.acc b := by
        rw [perform_of_decode hb, exec_hbyte_eq_next b s rfl] at ht
        cases ht
        rfl
      rw [hashBytes_cons_of_hbyte hb, List.foldl_cons, htacc]
    · have hb := not_exists.mp hb
      rw [hashBytes_cons_of_ne hb, perform_next_acc_eq ht hw hb]

/-! ### Hash commands and the other words -/

theorem notHashCommand_of_decode {w : CommandWord} {i : Instr} (h : decode w = .ok i) :
    notHashCommand w = true ↔ i.opcode ∉ [Opcode.hinit, Opcode.hbyte, Opcode.hget] := by
  rw [notHashCommand, h]
  cases i <;> simp [Instr.opcode]

theorem exists_decode_of_hash {w : CommandWord} (h : notHashCommand w = false) :
    ∃ i, decode w = .ok i ∧ i.opcode ∈ [Opcode.hinit, Opcode.hbyte, Opcode.hget] := by
  cases hw : decode w with
  | error e => simp [notHashCommand, hw] at h
  | ok i =>
    refine ⟨i, rfl, not_not.mp fun hi => ?_⟩
    rw [(notHashCommand_of_decode hw).mpr hi] at h
    cases h

/-- A hash command leaves the filter alone (40_hash R85). -/
theorem perform_next_filter_eq {w : CommandWord} {s s' : State} (hw : notHashCommand w = false)
    (h : perform w s = .next s') : s'.filter = s.filter := by
  obtain ⟨i, hd, hi⟩ := exists_decode_of_hash hw
  obtain ⟨t, r, ht, rfl⟩ := exec_next_effect (perform_of_decode hd s ▸ h)
  refine ht.filter_eq ?_
  cases i with
  | hinit | hbyte | hget => simp [Instr.opcode]
  | new | add | present | count | free => simp [Instr.opcode] at hi

theorem withInstance_setAcc {s : State} {a : Word} {act act' : Filter → Host.Outcome State Fault Refusal}
    (h : ∀ f, act' f = mapNext (·.setAcc a) (act f)) :
    withInstance (s.setAcc a) act' = mapNext (·.setAcc a) (withInstance s act) := by
  unfold withInstance
  rw [State.setAcc_filter]
  cases s.filter with
  | none => rfl
  | some f => exact h f

/-- A filter command does not read `ACC`, and hands it on as it was (40_hash R85). -/
theorem exec_setAcc {i : Instr} (hi : i.opcode ∉ [Opcode.hinit, Opcode.hbyte, Opcode.hget]) (s : State) (a : Word) :
    exec i (s.setAcc a) = mapNext (·.setAcc a) (exec i s) := by
  cases i with
  | hinit | hbyte | hget => simp [Instr.opcode] at hi
  | new n k =>
    have hst : newStatus n k (s.setAcc a) = newStatus n k s := rfl
    by_cases hok : newStatus n k s = .ok
    · rw [exec_new_of_ok hok, exec_new_of_ok (hst.trans hok)]
      rfl
    · rw [exec_new_of_ne_ok hok, exec_new_of_ne_ok (hst ▸ hok), hst]
      rfl
  | add h =>
    refine withInstance_setAcc fun f => ?_
    cases f.setAll (f.addresses h) <;> rfl
  | present h =>
    refine withInstance_setAcc fun f => ?_
    cases f.testAll true (f.addresses h) <;> rfl
  | count | free => exact withInstance_setAcc fun f => rfl

theorem perform_setAcc {w : CommandWord} (hw : notHashCommand w = true) (s : State) (a : Word) :
    perform w (s.setAcc a) = mapNext (·.setAcc a) (perform w s) := by
  cases hd : decode w with
  | ok i => rw [perform_of_decode hd, perform_of_decode hd, exec_setAcc ((notHashCommand_of_decode hd).mp hw)]
  | error e =>
    rw [perform_of_error hd, perform_of_error hd]
    rfl

/-- A hash command does not read the filter, and hands it on as it was (40_hash R85). -/
theorem exec_setFilter {i : Instr} (hi : i.opcode ∈ [Opcode.hinit, Opcode.hbyte, Opcode.hget]) (s : State)
    (f : Option Filter) : exec i (s.setFilter f) = mapNext (·.setFilter f) (exec i s) := by
  cases i with
  | hinit | hget => rfl
  | hbyte b =>
    obtain ⟨v, hv, h⟩ := exec_hbyte_named b s
    rw [h, exec_hbyte_eq_next b (s.setFilter f) (v := v) (by rw [State.setFilter_acc, hv])]
    rfl
  | new | add | present | count | free => simp [Instr.opcode] at hi

theorem perform_setFilter {w : CommandWord} (hw : notHashCommand w = false) (s : State) (f : Option Filter) :
    perform w (s.setFilter f) = mapNext (·.setFilter f) (perform w s) := by
  obtain ⟨i, hd, hi⟩ := exists_decode_of_hash hw
  rw [perform_of_decode hd, perform_of_decode hd, exec_setFilter hi]

/-- Everything a step can be: a response is taken, a word is accepted and performed, or the host has its turn. -/
theorem step_next_cases {s s' : State} (h : step s = .next s') :
    (s.rst = false ∧ s.rspReady = true ∧ s.rspPort.isSome ∧ s' = s.takeResponse) ∨
    (∃ w, s.rst = false ∧ s.rspPort = none ∧ s.cmdPort = some w ∧ perform w s.acceptCommand = .next s') ∨
    s' = s.hostTurn := by
  obtain ⟨hrst, hready, ⟨r, hr⟩, hturn⟩ | ⟨w, hrst, hrsp, hcmd, hturn⟩ | ⟨a, rest, hhost, hturn⟩ | ⟨hhost, hturn⟩ :=
    portTurn_cases s <;> rw [step, hturn] at h
  · cases h
    exact .inl ⟨hrst, hready, by simp [hr], rfl⟩
  · exact .inr (.inl ⟨w, hrst, hrsp, hcmd, h⟩)
  · cases h
    exact .inr (.inr (hostTurn_of_cons hhost).symm)
  · cases h
    exact .inr (.inr (by rw [State.hostTurn, hhost]))

/-! ### The statements -/

/-- Settles O25: `HINIT` starts `ACC` at the basis, the other words absorb their hash bytes into it. -/
theorem streamLaw : Obligations.StreamLaw := by
  intro w₀ ws s hs hw₀ hws
  have hinit : perform w₀ s = respond fnvOffsetBasis (s.setAcc fnvOffsetBasis) := by
    rw [perform_of_decode hw₀, exec_hinit]
  obtain ⟨s', hall, hacc⟩ := performAll_absorbs ws
    (s := (s.setAcc fnvOffsetBasis).reply { status := .ok, value := fnvOffsetBasis }) hs hws
  replace hacc : s'.acc = fnv1 (hashBytes ws) := hacc
  refine ⟨s', (performAll_cons_of_next hinit ws).trans hall, hacc, ?_, fun b => ?_⟩
  · rw [← hacc]
    exact exec_hget s'
  · exact exec_hbyte_eq_next b s' (by rw [hacc, fnv1_concat])

/-- Settles O26: performing commutes with replacing the part of the state that the word has nothing to do with, and of
the events at the ports only an `HINIT`, an `HBYTE` and reset write `ACC`. -/
theorem hashAndFilterAreIndependent : Obligations.HashAndFilterAreIndependent := by
  refine ⟨fun w s s' hw h => ⟨?_, fun a => ?_⟩, fun w s s' hw h => ⟨perform_next_filter_eq hw h, fun f => ?_⟩,
    fun s s' h hacc => ?_⟩
  · refine perform_next_acc_eq h (fun hd => ?_) (fun b hd => ?_)
    · exact (notHashCommand_of_decode hd).mp hw (by simp [Instr.opcode])
    · exact (notHashCommand_of_decode hd).mp hw (by simp [Instr.opcode])
  · exact (perform_setAcc hw s a).trans (by rw [h]; rfl)
  · exact (perform_setFilter hw s f).trans (by rw [h]; rfl)
  · obtain ⟨-, -, -, rfl⟩ | ⟨w, -, -, hcmd, hperform⟩ | rfl := step_next_cases h
    · exact absurd rfl hacc
    · refine .inl ⟨w, hcmd, ?_⟩
      by_contra hd
      obtain ⟨hinit, hbyte⟩ := not_or.mp hd
      exact hacc ((perform_next_acc_eq hperform hinit (not_exists.mp hbyte)).trans s.acceptCommand_acc)
    · obtain ⟨-, ⟨-, hsame, -⟩ | ⟨-, hreset⟩⟩ := hostTurn_cases s
      · exact absurd hsame hacc
      · exact .inr hreset.symm

/-- Settles O20: the basis in decimal is the literal in hexadecimal, and a second `HINIT` writes the same values. -/
theorem hinitResult : Obligations.HinitResult := by
  refine ⟨fun s => rfl, fun a b s => perform_packCommand .hinit a b s, fun s s' h => ?_⟩
  obtain rfl := respond_eq_next.mp (exec_hinit s ▸ h)
  rfl

/-- Settles O21: one FNV-1 step over the integers, and the byte as the decoder cuts it out of `A`. -/
theorem hbyteResult : Obligations.HbyteResult := by
  refine ⟨fun b s => exec_hbyte_eq_next b s (fnvStep_eq_ofNat s.acc b), fun a b s => ?_⟩
  rw [← byteOperand_eq_ofNat]
  exact perform_packCommand .hbyte a b s

/-- Settles O22: `HGET` answers `ACC` by definition, and the decoder drops its operands. -/
theorem hgetResult : Obligations.HgetResult :=
  ⟨exec_hget, fun a b s => perform_packCommand .hget a b s⟩

/-- Settles O23: `fnv1` is a fold of the FNV-1 step. -/
theorem fnvRecurrence : Obligations.FnvRecurrence :=
  ⟨rfl, fun bs b => (fnv1_concat bs b).trans (fnvStep_eq_ofNat _ b)⟩

end Sys2Proof.Machine

/-! PROOFS. The index derivation: the seeds and the round sums over the integers, their incremental form, and how many
addresses they give, which ones and how many of them differ (41_index R90 to R98). -/

namespace Sys2Proof.Machine

/-! ### The two seeds -/

/-- `h2` over the integers: `h` with its 32-bit halves exchanged (41_index R91). -/
theorem toNat_seed2 (h : Word) : (seed2 h).toNat = h.toNat % 2 ^ 32 * 2 ^ 32 + h.toNat / 2 ^ 32 := by
  have hlt := h.isLt
  rw [seed2, rotl64, BitVec.toNat_add, BitVec.toNat_shiftLeft, BitVec.toNat_ushiftRight, Nat.shiftLeft_eq,
    Nat.shiftRight_eq_div_pow]
  omega

/-- `h2` in bits: the halves of `h` in the other order (41_index R91). -/
theorem seed2_eq_append (h : Word) : seed2 h = h.extractLsb' 0 32 ++ h.extractLsb' 32 32 := by
  have hlt := h.isLt
  apply BitVec.eq_of_toNat_eq
  rw [toNat_seed2, BitVec.toNat_append, ← Nat.shiftLeft_add_eq_or_of_lt (BitVec.isLt _), BitVec.extractLsb'_toNat,
    BitVec.extractLsb'_toNat, Nat.shiftLeft_eq, Nat.shiftRight_eq_div_pow, Nat.shiftRight_eq_div_pow]
  omega

/-- The exchange of the halves loses nothing, so `h2` is zero only for `h = 0` (41_index R91). -/
theorem seed2_eq_zero_iff (h : Word) : seed2 h = 0#64 ↔ h = 0#64 := by
  rw [BitVec.toNat_eq, BitVec.toNat_eq, toNat_seed2, BitVec.toNat_zero]
  omega

/-! ### The sum and the index of a round -/

/-- `g_i` over the integers: one reduction at the end is enough, whatever the round (41_index R92). -/
theorem toNat_roundSum (h : Word) (i : Nat) : (roundSum h i).toNat = (h.toNat + i * (seed2 h).toNat) % 2 ^ 64 := by
  rw [roundSum, seed1, BitVec.toNat_add, BitVec.toNat_mul, BitVec.toNat_ofNat, Nat.mod_mul_mod, Nat.add_mod_mod]

theorem roundSum_zero (h : Word) : roundSum h 0 = seed1 h := by
  rw [roundSum, BitVec.zero_mul, BitVec.add_zero]

theorem roundSum_succ (h : Word) (i : Nat) : roundSum h (i + 1) = roundSum h i + seed2 h := by
  rw [roundSum, roundSum, BitVec.ofNat_add, BitVec.add_mul, BitVec.one_mul, BitVec.add_assoc]

/-- The multiplier-free form: `i` additions of `h2` to `h1` (41_index R93). -/
theorem roundSum_eq_iterate (h : Word) (i : Nat) : roundSum h i = (fun g => g + seed2 h)^[i] (seed1 h) := by
  induction i with
  | zero => exact roundSum_zero h
  | succ i ih => rw [roundSum_succ, ih, Function.iterate_succ_apply']

theorem index_eq_mod (h : Word) (i m : Nat) : index h i m = (roundSum h i).toNat % m := rfl

theorem index_round_zero (h : Word) (m : Nat) : index h 0 m = h.toNat % m := by
  rw [index_eq_mod, roundSum_zero, seed1]

/-- `h = 0` has both seeds 0, so every round addresses bit 0 (41_index R95). -/
theorem index_of_hash_zero (i m : Nat) : index 0#64 i m = 0 := by
  have hseed : seed2 0#64 = 0#64 := (seed2_eq_zero_iff _).mpr rfl
  rw [index_eq_mod, roundSum, hseed, BitVec.mul_zero, BitVec.add_zero, seed1, BitVec.toNat_zero, Nat.zero_mod]

/-- Modulo a divisor of `2^32` neither the wrap at `2^64` nor the upper half of a seed is seen (41_index R97). -/
theorem index_of_dvd (h : Word) (i : Nat) {m : Nat} (hm : m ∣ 2 ^ 32) :
    index h i m = (h.toNat % 2 ^ 32 + i * (h.toNat / 2 ^ 32)) % m := by
  have hseed : (seed2 h).toNat ≡ h.toNat / 2 ^ 32 [MOD m] := by
    rw [toNat_seed2]
    exact (Nat.ModEq.add_right _ (Nat.modEq_zero_iff_dvd.mpr (hm.mul_left _))).trans (by rw [Nat.zero_add])
  have hlow : h.toNat ≡ h.toNat % 2 ^ 32 [MOD m] := (Nat.mod_mod_of_dvd _ hm).symm
  rw [index_eq_mod, toNat_roundSum, Nat.mod_mod_of_dvd _ (hm.trans (by decide))]
  exact hlow.add (hseed.mul_left i)

/-- Modulo a power of two the index is the low bits of `g_i` (41_index R97). -/
theorem index_two_pow (h : Word) (i p : Nat) : index h i (2 ^ p) = ((roundSum h i).extractLsb' 0 p).toNat := by
  rw [index_eq_mod, BitVec.extractLsb'_toNat, Nat.shiftRight_zero]

/-! ### The list of indices -/

/-- An index does not depend on the number of rounds, so fewer rounds give the first indices (41_index R94). -/
theorem take_indices (h : Word) {k k' : Nat} (m : Nat) (hk : k' ≤ k) : (indices h k m).take k' = indices h k' m := by
  rw [indices, indices, ← List.map_take, List.take_range, Nat.min_eq_left hk]

theorem indices_eq_replicate {h : Word} {m j : Nat} (hj : ∀ i, index h i m = j) (k : Nat) :
    indices h k m = List.replicate k j := by
  rw [List.eq_replicate_iff]
  refine ⟨length_indices h k m, fun x hx => ?_⟩
  obtain ⟨i, -, rfl⟩ := (mem_indices h k m x).mp hx
  exact hj i

theorem one_le_length_dedup_indices (h : Word) {k : Nat} (m : Nat) (hk : 1 ≤ k) :
    1 ≤ (indices h k m).dedup.length := by
  have hmem : index h 0 m ∈ (indices h k m).dedup :=
    List.mem_dedup.mpr ((mem_indices h k m _).mpr ⟨0, hk, rfl⟩)
  exact List.length_pos_of_mem hmem

theorem length_dedup_indices_le_rounds (h : Word) (k m : Nat) : (indices h k m).dedup.length ≤ k :=
  (List.dedup_sublist _).length_le.trans_eq (length_indices h k m)

/-- Distinct indices are distinct addresses of the `m` there are. -/
theorem length_dedup_indices_le_length (h : Word) (k : Nat) {m : Nat} (hm : 1 ≤ m) :
    (indices h k m).dedup.length ≤ m := by
  have hsub : (indices h k m).dedup ⊆ List.range m := fun j hj =>
    List.mem_range.mpr (indices_lt h k hm j (List.mem_dedup.mp hj))
  exact ((List.nodup_dedup _).subperm hsub).length_le.trans_eq List.length_range

/-! ### The statements -/

/-- Settles O29: the rotation by 32 exchanges the halves. -/
theorem seedsOfAHash : Obligations.SeedsOfAHash :=
  fun h => ⟨rfl, toNat_seed2 h, seed2_eq_append h, seed2_eq_zero_iff h⟩

/-- Settles O30: the round sum over the integers, and the wrap in an example. -/
theorem indexFormula : Obligations.IndexFormula := by
  refine ⟨fun h i m hm => ⟨?_, index_lt h i hm, index_round_zero h m⟩, by decide⟩
  rw [index_eq_mod, toNat_roundSum, toNat_seed2]

/-- Settles O31, by induction on the round. -/
theorem incrementalForm : Obligations.IncrementalForm := by
  refine fun h i m => ⟨roundSum_zero h, roundSum_succ h i, ?_⟩
  rw [index_eq_mod, roundSum_eq_iterate]

/-- Settles O32: one index per round, each reduced modulo `m`, each independent of `k`. -/
theorem indicesRangeAndFirstRounds : Obligations.IndicesRangeAndFirstRounds :=
  fun h k m _ hm => ⟨length_indices h k m, indices_lt h k hm, fun _ hk' => take_indices h m hk'⟩

/-- Settles O33: round 0 gives an index, `k` rounds give at most `k`, and all lie among `m` addresses. -/
theorem indicesMayRepeat : Obligations.IndicesMayRepeat := by
  refine ⟨fun h k m hk hm => ⟨one_le_length_dedup_indices h m hk, ?_⟩, fun k m => ?_, fun h k => ?_, by decide,
    by decide⟩
  · exact le_min (length_dedup_indices_le_rounds h k m) (length_dedup_indices_le_length h k hm)
  · exact indices_eq_replicate (fun i => index_of_hash_zero i m) k
  · exact indices_eq_replicate (fun i => Nat.mod_one _) k

/-- Settles O34: reduction modulo a divisor of `2^32`, and modulo a power of two. -/
theorem powerOfTwoIndex : Obligations.PowerOfTwoIndex :=
  ⟨fun h i _ hm => index_of_dvd h i hm, fun h i p _ => index_two_pow h i p⟩

/-- Settles O35, by evaluation of the ten rounds. -/
theorem workedIndices : Obligations.WorkedIndices := by
  unfold Obligations.WorkedIndices
  decide

end Sys2Proof.Machine

/-! PROOFS. The filter commands: writing and testing many bits, the count, and what each command answers
(42_filter R101 to R107). -/

namespace Sys2Proof.Machine

/-! ### Bits read and bits listed -/

theorem Memory.ext_mem {b c : Memory} (hb : Memory.wf b) (hc : Memory.wf c) (h : ∀ j, j ∈ b ↔ j ∈ c) : b = c :=
  Memory.ext_read hb hc fun j => by simp only [Memory.read, h]

theorem Filter.memRead_of_lt {f : Filter} {j : Nat} (hj : j < f.m) : f.memRead j = some (Memory.read f.bits j) :=
  (Filter.memRead_eq_some _ _ _).mpr ⟨hj, rfl⟩

/-- A bit reads 1 exactly when its address is listed and lies inside the array. -/
theorem Filter.memRead_eq_some_true (f : Filter) (j : Nat) : f.memRead j = some true ↔ j < f.m ∧ j ∈ f.bits := by
  rw [Filter.memRead_eq_some, Memory.read, eq_comm, decide_eq_true_iff]

/-! ### Writing 1 at many addresses -/

section
variable {f : Filter} {is js : List Nat}

/-- Only which addresses are written matters, neither their order nor how often (42_filter R102). -/
theorem Filter.setAll_congr (hwf : Memory.wf f.bits) (his : ∀ i ∈ is, i < f.m) (h : ∀ j, j ∈ is ↔ j ∈ js) :
    f.setAll is = f.setAll js := by
  obtain ⟨b, hb, hbmem, hbwf⟩ := Filter.setAll_spec f is his
  obtain ⟨c, hc, hcmem, hcwf⟩ := Filter.setAll_spec f js fun i hi => his i ((h i).mpr hi)
  have hbc : b = c := Memory.ext_mem (hbwf hwf) (hcwf hwf) fun j => by rw [hbmem, hcmem, h]
  rw [hb, hc, hbc]

/-- Writing 1 where every bit is 1 already changes nothing (42_filter R102, R106). -/
theorem Filter.setAll_eq_self (hwf : Memory.wf f.bits) (his : ∀ i ∈ is, i < f.m) (h : ∀ i ∈ is, i ∈ f.bits) :
    f.setAll is = some f := by
  obtain ⟨b, hb, hmem, hbwf⟩ := Filter.setAll_spec f is his
  have hbits : b = f.bits := Memory.ext_mem (hbwf hwf) hwf fun j => by
    rw [hmem]
    exact or_iff_right_of_imp (h j)
  rw [hb, hbits]

end

/-- After the derived addresses are written, a bit reads 1 if its address is derived and as before otherwise. -/
theorem Filter.memRead_of_setAll {f f' : Filter} {h : Word} {j : Nat} (hset : f.setAll (f.addresses h) = some f')
    (hj : j < f.m) :
    f'.memRead j = some (Memory.read f.bits j || (List.range f.k).any fun i => decide (index h i f.m = j)) := by
  obtain ⟨hcap, -, hmem⟩ := Filter.of_setAll_eq_some hset
  have hj' : j < f'.m := hj.trans_eq hcap.symm
  rw [Filter.memRead_of_lt hj', Option.some_inj, Bool.eq_iff_iff]
  simp [Memory.read, hmem, Filter.addresses, mem_indices, or_comm]

/-- The bits that writing the derived addresses changes are derived addresses, so there are at most `min(K, M)`. -/
theorem Filter.length_changed_le_min {f f' : Filter} {h : Word} (hm : 1 ≤ f.m)
    (hset : f.setAll (f.addresses h) = some f') :
    ((List.range f.m).filter fun j => f'.memRead j != f.memRead j).length ≤ min f.k f.m := by
  obtain ⟨hcap, -, hread⟩ := Filter.setAll_frame hset
  have hm' : f'.m = f.m := hcap
  have hsub : ((List.range f.m).filter fun j => f'.memRead j != f.memRead j) ⊆ (indices h f.k f.m).dedup := by
    intro j hj
    obtain ⟨-, hchanged⟩ := List.mem_filter.mp hj
    refine List.mem_dedup.mpr (by_contra fun hnot => bne_iff_ne.mp hchanged ?_)
    rw [Filter.memRead, Filter.memRead, hm', hread j hnot]
  have hle := ((List.nodup_range.filter _).subperm hsub).length_le
  exact le_min (hle.trans (length_dedup_indices_le_rounds h f.k f.m))
    (hle.trans (length_dedup_indices_le_length h f.k hm))

/-! ### The count -/

/-- `popcount` is the number of addresses below `M` that read 1 (42_filter R104). -/
theorem Filter.popcount_eq {f : Filter} (hwf : Memory.wf f.bits) :
    f.popcount = ((List.range f.m).filter fun j => f.memRead j == some true).length := by
  have hbits : f.bits.Nodup := hwf.imp ne_of_lt
  refine ((List.perm_ext_iff_of_nodup (hbits.filter _) (List.nodup_range.filter _)).mpr fun j => ?_).length_eq
  simp only [List.mem_filter, List.mem_range, beq_iff_eq, decide_eq_true_iff, Filter.memRead_eq_some_true]
  tauto

theorem Filter.popcount_le {f : Filter} (hwf : Memory.wf f.bits) : f.popcount ≤ f.m := by
  rw [Filter.popcount_eq hwf]
  exact (List.length_filter_le _ _).trans_eq List.length_range

/-- On an array of zeros the count is 0 (42_filter R104). -/
theorem Filter.popcount_eq_zero {f : Filter} (hwf : Memory.wf f.bits) (hfresh : ∀ j < f.m, f.memRead j = some false) :
    f.popcount = 0 := by
  rw [Filter.popcount_eq hwf, List.length_eq_zero_iff, List.filter_eq_nil_iff]
  intro j hj
  rw [hfresh j (List.mem_range.mp hj)]
  decide

/-! ### What each command does -/

section
variable {h : Word} {n k : Int} {s : State} {f f' : Filter}

theorem State.setFilter_eq_self (hf : s.filter = some f) : s.setFilter (some f) = s := by
  rw [← hf]
  rfl

theorem exec_add_of_setAll (hf : s.filter = some f) (hset : f.setAll (f.addresses h) = some f') :
    exec (.add h) s = respond 0#64 (s.setFilter (some f')) := by
  simp only [exec, execAdd, withInstance, hf, hset]

/-- `ADD` where all derived bits are 1 already changes nothing (42_filter R102, R106). -/
theorem exec_add_of_all_set (hf : s.filter = some f) (hwf : f.wf s.config) (hset : ∀ j ∈ f.addresses h, j ∈ f.bits) :
    exec (.add h) s = respond 0#64 s := by
  obtain ⟨-, -, ⟨hm, -⟩, hcanon, -⟩ := hwf
  rw [exec_add_of_setAll hf (Filter.setAll_eq_self hcanon (f.addresses_lt h hm) hset), State.setFilter_eq_self hf]

theorem Filter.all_addresses_read_iff (f : Filter) (h : Word) (hm : 1 ≤ f.m) :
    (f.addresses h).all (Memory.read f.bits) = true ↔ ∀ i < f.k, f.memRead (index h i f.m) = some true := by
  simp only [List.all_eq_true, Filter.addresses, mem_indices, forall_exists_index, and_imp,
    forall_apply_eq_imp_iff₂, Filter.memRead_of_lt (index_lt h _ hm), Option.some_inj]

/-- `PRESENT` in terms of the bits each round reads (42_filter R103). -/
theorem exec_present_eq_ite (hf : s.filter = some f) (hm : 1 ≤ f.m) :
    exec (.present h) s =
      respond (if ∀ i < f.k, f.memRead (index h i f.m) = some true then 1#64 else 0#64) s := by
  rw [exec_present_of_some hf hm, boolValue, if_congr (f.all_addresses_read_iff h hm) rfl rfl]

/-- `NEW` that fails a check answers its status and changes nothing (42_filter R101). -/
theorem exec_new_of_status {st : Status} (hstatus : newStatus n k s = st) (hst : st ≠ .ok) :
    exec (.new n k) s = .next { s with rspPort := some { status := st, value := 0#64 } } := by
  subst hstatus
  exact exec_new_of_ne_ok hst

/-- `NEW` that passes every check makes an instance of `n` bits, all 0 (42_filter R101). -/
theorem exec_new_of_fits (hn : 0 < n) (hk : 0 < k) (hnone : s.filter = none) (hfits : n ≤ s.config.bitsMax) :
    exec (.new n k) s =
      .next { s with filter := some { cap := n.toNat, k := k.toNat, bits := Memory.zeros },
                     rspPort := some { status := .ok, value := BitVec.ofInt 64 n } } := by
  have hok : newStatus n k s = .ok := by
    obtain ⟨hbad, -⟩ | ⟨-, -, hsome, -⟩ | ⟨-, -, -, hbig, -⟩ | ⟨-, -, -, -, hok⟩ := newStatus_cases n k s
    · omega
    · simp [hnone] at hsome
    · omega
    · exact hok
  have hvalue : BitVec.ofNat 64 n.toNat = BitVec.ofInt 64 n := by
    rw [← BitVec.ofInt_natCast, Int.toNat_of_nonneg hn.le]
  rw [exec_new_of_ok hok, hvalue]
  rfl

end

theorem Filter.memRead_zeros {cap k j : Nat} (hj : j < Filter.m { cap, k, bits := Memory.zeros }) :
    Filter.memRead { cap, k, bits := Memory.zeros } j = some false := by
  rw [Filter.memRead_of_lt hj, Memory.read_zeros]

/-! ### The statements -/

/-- Settles O36: the checks of `NEW` in their order, and the instance a `NEW` that passes them makes. -/
theorem newResult : Obligations.NewResult := by
  refine ⟨fun n k s => ⟨fun hbad => ?_, fun hn hk hsome => ?_, fun hn hk hnone hbig => ?_,
    fun hn hk hnone hfits => ?_⟩, fun a b s => perform_packCommand .new a b s⟩
  · exact exec_new_of_status (if_pos hbad) (by decide)
  · refine exec_new_of_status ?_ (by decide)
    rw [newStatus, if_neg (by omega), if_pos (show s.valid = true from Option.isSome_iff_ne_none.mpr hsome)]
  · refine exec_new_of_status ?_ (by decide)
    rw [newStatus, if_neg (by omega), if_neg (by simp [State.valid, hnone]), if_pos (by rw [bitsLength]; omega)]
  · exact ⟨{ cap := n.toNat, k := k.toNat, bits := Memory.zeros }, Int.toNat_of_nonneg hn.le,
      Int.toNat_of_nonneg hk.le, Int.toNat_of_nonneg hn.le, fun j hj => Filter.memRead_zeros hj,
      exec_new_of_fits hn hk hnone hfits⟩

/-- Settles O37: the bits after an `ADD` are the bits before and the derived ones, and which bits they are fixes the
canonical array. -/
theorem addResult : Obligations.AddResult := by
  refine ⟨fun h s hnone => exec_of_none hnone (by simp [Instr.opcode]), fun h s f hf hm => ?_,
    fun h s s' f hf hwf hexec => ?_, fun a b s => perform_packCommand .add a b s, by decide⟩
  · obtain ⟨b, hadd, hset, -, -⟩ := exec_add_of_some (h := h) hf hm
    exact ⟨b, hadd, fun j hj => Filter.memRead_of_setAll hset hj⟩
  · have ⟨_, _, ⟨hm, _⟩, hcanon, _⟩ := hwf
    obtain ⟨b, hadd, hset, hmem, -⟩ := exec_add_of_some (h := h) hf hm
    obtain rfl := respond_eq_next.mp (hadd.symm.trans hexec)
    refine ⟨?_, ⟨{ f with bits := b }, rfl, Filter.length_changed_le_min hm hset⟩, fun is his => ?_⟩
    · refine exec_add_of_all_set rfl (Filter.wf_of_setAll hwf hset) fun j hj => ?_
      exact (hmem j).mpr (.inl hj)
    · have hsame : f.setAll is = f.setAll (f.addresses h) :=
        Filter.setAll_congr hcanon (fun i hi => f.addresses_lt h hm i (his.mem_iff.mp hi)) fun j => his.mem_iff
      rw [hsame, hset]
      rfl

/-- Settles O38: the conjunction of the bits at the derived addresses, which is not empty. -/
theorem presentResult : Obligations.PresentResult := by
  refine ⟨fun h s hnone => exec_of_none hnone (by simp [Instr.opcode]), ?_, ?_,
    fun a b s => perform_packCommand .present a b s⟩
  · rintro h s f hf hm v rfl
    exact exec_present_eq_ite hf hm
  · intro h s f hf hm hk hfresh
    have hround : f.memRead (index h 0 f.m) = some false := hfresh _ (index_lt h 0 hm)
    have hnot : ¬ ∀ i < f.k, f.memRead (index h i f.m) = some true := fun hall => by simp [hall 0 hk] at hround
    rw [exec_present_eq_ite hf hm, if_neg hnot]
    rfl

/-- Settles O39: the count of the listed addresses is the count of the addresses that read 1, at most `M` and so not
cut to 64 bits. -/
theorem countResult : Obligations.CountResult := by
  refine ⟨fun s hnone => exec_of_none hnone (by simp [Instr.opcode]), fun s f hf hwf hconfig => ?_,
    fun a b s => perform_packCommand .count a b s⟩
  obtain ⟨-, -, ⟨-, hmax⟩, hcanon, -⟩ := hwf
  obtain ⟨-, hbound⟩ := hconfig
  have hcount := Filter.popcount_eq hcanon
  have hle := Filter.popcount_le hcanon
  have hvalue : (BitVec.ofNat 64 f.popcount).toNat = f.popcount := Nat.mod_eq_of_lt (by omega)
  exact ⟨BitVec.ofNat 64 f.popcount, hvalue.trans hcount, hvalue.trans_le hle,
    fun hfresh => by rw [Filter.popcount_eq_zero hcanon hfresh], exec_count_of_some hf⟩

/-- Settles O40: after `FREE` there is no instance, and the next `NEW` starts from all-zero bits. -/
theorem freeResult : Obligations.FreeResult := by
  refine ⟨fun s hnone => exec_of_none hnone (by simp [Instr.opcode]), fun s hsome => ?_,
    fun a b s => perform_packCommand .free a b s⟩
  obtain ⟨f, hf⟩ := Option.ne_none_iff_exists'.mp hsome
  refine ⟨_, rfl, exec_free_of_some hf, fun i hi => exec_of_none rfl hi, fun n k hn hk hfits => ?_⟩
  exact ⟨_, fun j hj => Filter.memRead_zeros hj, exec_new_of_fits hn hk rfl hfits⟩

/-- Settles O41: on a full filter every derived bit is 1 already. -/
theorem fullFilter : Obligations.FullFilter := by
  intro h s f hf hwf hfull
  have ⟨_, _, ⟨hm, _⟩, _⟩ := hwf
  constructor
  · refine exec_add_of_all_set hf hwf fun j hj => ?_
    exact ((f.memRead_eq_some_true j).mp (hfull j (f.addresses_lt h hm j hj))).2
  · rw [exec_present_eq_ite hf hm, if_pos fun i _ => hfull _ (index_lt h i hm)]
    rfl

end Sys2Proof.Machine

/-! PROOFS. What holds of the machine along its steps and along histories of words: the invariant, and the words that
change nothing (43_properties R126, R134). -/

namespace Sys2Proof.Machine

/-! ### Answers along a history -/

theorem performAll_cons_eq_next {w : CommandWord} {ws : List CommandWord} {s s' : State} :
    performAll (w :: ws) s = .next s' ↔ ∃ t, perform w s = .next t ∧ performAll ws t = .next s' := by
  simp only [performAll]
  cases perform w s <;> simp

theorem perform_next_config_eq {w : CommandWord} {s s' : State} (h : perform w s = .next s') :
    s'.config = s.config := by
  obtain ⟨a, f, r, rfl⟩ := perform_next_shape h
  rfl

/-- Every answer of a well-formed instruction keeps the block well formed (43_properties R134). -/
theorem exec_next_blockWf {i : Instr} {s s' : State} (hi : i.WellFormed) (hs : s.BlockWf) (h : exec i s = .next s') :
    s'.BlockWf := by
  obtain ⟨t, r, ht, rfl⟩ := exec_next_effect h
  exact ht.blockWf hi hs

/-- Settles O16, by induction on the words. -/
theorem historiesKeepTheBlockWellFormed : Obligations.HistoriesKeepTheBlockWellFormed := by
  intro ws
  induction ws with
  | nil => exact fun s hs => ⟨s, rfl, hs⟩
  | cons w ws ih =>
    intro s hs
    obtain ⟨t, hw, ht⟩ := perform_answers w hs
    obtain ⟨s', hws, hs'⟩ := ih t ht
    exact ⟨s', (performAll_cons_of_next hw ws).trans hws, hs'⟩

/-! ### The invariant over the events at the ports -/

/-- While `rst = 0` the invariant asks nothing of `ACC` and lets a response wait. -/
theorem State.inv_of_rst_eq_false {s : State} (hrst : s.rst = false) (hblock : s.BlockWf)
    (hrsp : ∀ r ∈ s.rspPort, r.wf) (htaken : ∀ r ∈ s.taken, r.wf) : s.Inv :=
  ⟨hblock, hrsp, htaken, fun h => absurd h (by simp [hrst])⟩

theorem State.Inv.takeResponse {s : State} (hs : s.Inv) : s.takeResponse.Inv := by
  obtain ⟨hblock, hrsp, htaken, hreset⟩ := hs
  refine ⟨hblock, by simp, fun r hr => ?_, fun hrst => ?_⟩
  · rw [State.takeResponse_taken, List.mem_append, Option.mem_toList] at hr
    exact hr.elim (htaken r) (hrsp r)
  · obtain ⟨hacc, hfilter, -⟩ := hreset hrst
    exact ⟨hacc, hfilter, rfl⟩

/-- The block in the reset state satisfies the invariant at either level of `rst`. -/
theorem State.Inv.driveRst {s : State} (hs : s.Inv) (level : Bool) : (s.driveRst level).Inv := by
  have ⟨⟨hconfig, _⟩, _, htaken, _⟩ := hs
  rw [State.driveRst]
  split
  · exact ⟨⟨hconfig, by simp⟩, by simp, htaken, fun _ => ⟨rfl, rfl, rfl⟩⟩
  · exact hs

/-- Which word is presented, whether the host is ready, and what it will do are no part of the invariant. -/
theorem State.Inv.applyAction {s : State} (hs : s.Inv) (a : HostAction) : (s.applyAction a).Inv := by
  cases a with
  | driveCommand | driveRspReady => exact hs
  | driveRst level => exact hs.driveRst level

/-- The host's turn leaves the filter, or removes it by the level 1 or from the level 1. -/
theorem hostTurn_filter (s : State) :
    s.hostTurn.filter = s.filter ∨ (s.hostTurn.filter = none ∧ (s.rst = true ∨ s.hostTurn.rst = true)) := by
  cases hh : s.host with
  | nil => exact .inl (by rw [State.hostTurn, hh])
  | cons a rest =>
    rw [hostTurn_of_cons hh]
    cases a with
    | driveCommand | driveRspReady => exact .inl rfl
    | driveRst level =>
      rw [State.applyAction, State.driveRst]
      split
      · next hl => exact .inr ⟨rfl, (Bool.or_eq_true_iff.mp hl).symm⟩
      · exact .inl rfl

/-- The response to a word carries value 0 unless its status is `OK` (30_encoding R61). -/
theorem perform_next_response_wf {w : CommandWord} {s s' : State} (h : perform w s = .next s') :
    ∀ r ∈ s'.rspPort, r.wf := by
  obtain ⟨-, -, hvalue⟩ := responseWordAndErrorValue
  exact fun r hr hst => hvalue w s s' r h hr hst

/-- Performing an accepted word keeps the invariant. -/
theorem perform_keeps_inv (w : CommandWord) {s : State} (hs : s.Inv) (hrst : s.rst = false) :
    ∃ s', perform w s = .next s' ∧ s'.Inv := by
  obtain ⟨hblock, -, htaken, -⟩ := hs
  obtain ⟨s', hw, hblock'⟩ := perform_answers w hblock
  have hrsp := perform_next_response_wf hw
  obtain ⟨a, f, r, rfl⟩ := perform_next_shape hw
  exact ⟨_, hw, State.inv_of_rst_eq_false hrst hblock' hrsp htaken⟩

/-- Settles O14: each event at the ports keeps the invariant, and an accepted word is answered. -/
theorem everyStepKeepsTheInvariant : Obligations.EveryStepKeepsTheInvariant := by
  intro s hs
  obtain ⟨-, -, -, hturn⟩ | ⟨w, hrst, hrsp, hcmd, -⟩ | ⟨a, rest, -, hturn⟩ | ⟨-, hturn⟩ := portTurn_cases s
  · exact ⟨_, by rw [step, hturn], hs.takeResponse⟩
  · rw [step_of_accept hrst hrsp hcmd]
    exact perform_keeps_inv w (s := s.acceptCommand) hs hrst
  · exact ⟨_, by rw [step, hturn], State.Inv.applyAction (s := { s with host := rest }) hs a⟩
  · exact ⟨_, by rw [step, hturn], hs⟩

/-- Settles O15: without an instance and without responses only the parameter has to be legal. -/
theorem resetSatisfiesTheInvariant : Obligations.ResetSatisfiesTheInvariant := by
  have hreset (c : Config) (hc : c.wf) : State.Inv { State.reset with config := c } :=
    State.inv_of_rst_eq_false rfl ⟨hc, by simp [State.reset]⟩ (by simp [State.reset]) (by simp [State.reset])
  exact ⟨hreset State.reset.config (by decide), hreset⟩

/-! ### Words that change nothing -/

/-- `PRESENT`, `COUNT` and `HGET` have no effect (43_properties R126). -/
theorem Effect.eq_of_read {i : Instr} {s t : State} (h : Effect s i t)
    (hi : i.opcode ∈ [Opcode.present, Opcode.count, Opcode.hget]) : t = s := by
  cases h with
  | unchanged => rfl
  | hinit | hbyte | new | add | free => simp [Instr.opcode] at hi

theorem perform_next_of_read {w : CommandWord} {i : Instr} {s s' : State} (hw : decode w = .ok i)
    (hi : i.opcode ∈ [Opcode.present, Opcode.count, Opcode.hget]) (h : perform w s = .next s') :
    ∃ r, s' = s.reply r := by
  obtain ⟨t, r, ht, rfl⟩ := exec_next_effect (perform_of_decode hw s ▸ h)
  exact ⟨r, by rw [ht.eq_of_read hi]⟩

/-- Settles O19: such a word only presents its response, and a response that waits does not matter to the next word. -/
theorem pureReadsAndErrorsChangeNothing : Obligations.PureReadsAndErrorsChangeNothing := by
  intro w s s' r h hr hw
  have hreply : ∃ r', s' = s.reply r' := by
    obtain ⟨x, hd⟩ | hd | hd | ⟨e, hd⟩ | hst := hw
    · exact perform_next_of_read hd (by simp [Instr.opcode]) h
    · exact perform_next_of_read hd (by simp [Instr.opcode]) h
    · exact perform_next_of_read hd (by simp [Instr.opcode]) h
    · exact ⟨_, raise_eq_next.mp ((perform_of_error hd s).symm.trans h)⟩
    · obtain ⟨t, v, rfl⟩ | ⟨st, -, rfl⟩ := perform_next_ok_or_error h
      · cases hr
        exact absurd rfl hst
      · exact ⟨_, rfl⟩
  obtain ⟨r', rfl⟩ := hreply
  cases hr
  exact ⟨rfl, (perform_reply w s r).trans h⟩

end Sys2Proof.Machine

/-! PROOFS. An instance over a history without `FREE`: it takes the derived bits of the `ADD`s among the words, and
nothing else, so its bits only grow, its count is bounded and no added hash is missed (43_properties R120 to R127,
R131). -/

namespace Sys2Proof.Machine

/-! ### Writing 1 at many addresses -/

theorem Memory.wf.nodup {b : Memory} (h : Memory.wf b) : b.Nodup := h.imp ne_of_lt

section
variable {f f' : Filter} {is : List Nat}

theorem Filter.setAll_append (f : Filter) (is js : List Nat) :
    f.setAll (is ++ js) = (f.setAll is).bind (·.setAll js) := by
  induction is generalizing f with
  | nil => rfl
  | cons i is ih =>
    simp only [List.cons_append, Filter.setAll]
    cases f.memWrite i true with
    | none => rfl
    | some g => exact ih g

/-- Addresses written one list after the other are written as one list. -/
theorem Filter.setAll_append_of_some {js : List Nat} (h : f.setAll is = some f') :
    f.setAll (is ++ js) = f'.setAll js := by
  rw [Filter.setAll_append, h]
  rfl

theorem Filter.m_of_setAll (h : f.setAll is = some f') : f'.m = f.m := by
  obtain ⟨hcap, -, -⟩ := Filter.of_setAll_eq_some h
  exact hcap

theorem Filter.addresses_of_setAll (h : f.setAll is = some f') (x : Word) : f'.addresses x = f.addresses x := by
  obtain ⟨-, hk, -⟩ := Filter.of_setAll_eq_some h
  rw [Filter.addresses, Filter.addresses, hk, Filter.m_of_setAll h]

theorem Filter.exists_setAll_addresses (hm : 1 ≤ f.m) (x : Word) : ∃ f', f.setAll (f.addresses x) = some f' := by
  obtain ⟨b, hb, -⟩ := Filter.setAll_spec f (f.addresses x) (f.addresses_lt x hm)
  exact ⟨_, hb⟩

/-- The derived addresses of two hashes are written in either order with the same result (43_properties R127). -/
theorem Filter.setAll_addresses_comm {f₁ f₂ : Filter} {x y : Word} (hcanon : Memory.wf f.bits) (hm : 1 ≤ f.m)
    (h₁ : f.setAll (f.addresses x) = some f₁) (h₂ : f.setAll (f.addresses y) = some f₂) :
    ∃ g, f₁.setAll (f₁.addresses y) = some g ∧ f₂.setAll (f₂.addresses x) = some g := by
  have hm₁ : 1 ≤ f₁.m := hm.trans_eq (Filter.m_of_setAll h₁).symm
  obtain ⟨g, hg⟩ := Filter.exists_setAll_addresses hm₁ y
  refine ⟨g, hg, ?_⟩
  have hlt : ∀ j ∈ f.addresses y ++ f.addresses x, j < f.m := fun j hj =>
    (List.mem_append.mp hj).elim (f.addresses_lt y hm j) (f.addresses_lt x hm j)
  rw [Filter.addresses_of_setAll h₁, ← Filter.setAll_append_of_some h₁] at hg
  rw [Filter.addresses_of_setAll h₂, ← Filter.setAll_append_of_some h₂, ← hg]
  exact Filter.setAll_congr hcanon hlt fun j => List.perm_append_comm.mem_iff

/-! ### The count of a well-formed filter -/

theorem Filter.popcount_eq_length {c : Config} (hwf : f.wf c) : f.popcount = f.bits.length := by
  obtain ⟨-, -, -, -, hbits⟩ := hwf
  rw [Filter.popcount, List.filter_eq_self.mpr fun j hj => decide_eq_true (hbits j hj)]

/-- Writing the derived bits adds to the list of addresses the distinct ones that read 0 before. -/
theorem Filter.perm_of_setAll {c : Config} {x : Word} (hwf : f.wf c) (hset : f.setAll (f.addresses x) = some f') :
    f'.bits.Perm (f.bits ++ (indices x f.k f.m).dedup.filter fun j => !Memory.read f.bits j) := by
  have ⟨_, _, _, hcanon, _⟩ := hwf
  have ⟨_, _, _, hcanon', _⟩ := Filter.wf_of_setAll hwf hset
  obtain ⟨-, -, hmem⟩ := Filter.of_setAll_eq_some hset
  have hnew : (f.bits ++ (indices x f.k f.m).dedup.filter fun j => !Memory.read f.bits j).Nodup := by
    refine (Memory.wf.nodup hcanon).append ((List.nodup_dedup _).filter _) fun j hj hj' => ?_
    simp [Memory.read, hj] at hj'
  refine (List.perm_ext_iff_of_nodup (Memory.wf.nodup hcanon') hnew).mpr fun j => ?_
  rw [hmem, Filter.addresses]
  simp only [Memory.read, List.mem_append, List.mem_filter, List.mem_dedup, Bool.not_eq_true', decide_eq_false_iff_not]
  tauto

/-- `ADD` raises the count by the number of distinct derived addresses that read 0 before (43_properties R122). -/
theorem Filter.popcount_of_setAll {c : Config} {x : Word} (hwf : f.wf c)
    (hset : f.setAll (f.addresses x) = some f') :
    f'.popcount = f.popcount + ((indices x f.k f.m).dedup.filter fun j => !Memory.read f.bits j).length := by
  rw [Filter.popcount_eq_length hwf, Filter.popcount_eq_length (Filter.wf_of_setAll hwf hset),
    (Filter.perm_of_setAll hwf hset).length_eq, List.length_append]

end

/-! ### The bits a word writes -/

theorem isAdd_eq_true_iff {w : CommandWord} : isAdd w = true ↔ ∃ h, decode w = .ok (.add h) := by
  rw [isAdd]
  split <;> simp_all

/-- The addresses a word writes on the instance: the derived ones of an `ADD`, none for any other word. -/
def Filter.written (f : Filter) (w : CommandWord) : List Nat :=
  match decode w with
  | .ok (.add h) => f.addresses h
  | _ => []

section
variable {f f' : Filter} {w : CommandWord} {ws : List CommandWord} {s s' : State}

theorem Filter.written_of_add {h : Word} (hw : decode w = .ok (.add h)) : f.written w = f.addresses h := by
  simp only [Filter.written, hw]

theorem Filter.written_of_not_add (hw : isAdd w = false) : f.written w = [] := by
  rw [Filter.written]
  split
  · simp_all [isAdd]
  · rfl

theorem Filter.written_of_setAll {is : List Nat} (h : f.setAll is = some f') : f'.written = f.written := by
  funext w
  simp only [Filter.written, Filter.addresses_of_setAll h]

/-- A history writes `K` addresses for each `ADD` in it. -/
theorem Filter.length_flatMap_written (f : Filter) (ws : List CommandWord) :
    (ws.flatMap f.written).length = (ws.filter isAdd).length * f.k := by
  induction ws with
  | nil => simp
  | cons w ws ih =>
    rw [List.flatMap_cons, List.length_append, ih]
    cases hw : isAdd w with
    | false => rw [Filter.written_of_not_add hw, List.filter_cons_of_neg (by simp [hw]), List.length_nil, Nat.zero_add]
    | true =>
      obtain ⟨h, hd⟩ := isAdd_eq_true_iff.mp hw
      rw [Filter.written_of_add hd, Filter.addresses, length_indices, List.filter_cons_of_pos hw, List.length_cons]
      ring

/-! ### What a history does to the instance -/

/-- A word other than `ADD` and `FREE` leaves an instance as it is. -/
theorem perform_next_filter_eq_of_not_add (hf : s.filter = some f) (hadd : isAdd w = false)
    (hfree : decode w ≠ .ok .free) (h : perform w s = .next s') : s'.filter = some f := by
  cases hw : decode w with
  | error e =>
    cases (perform_of_error hw s).symm.trans h
    exact hf
  | ok i =>
    obtain ⟨t, r, ht, rfl⟩ := exec_next_effect (perform_of_decode hw s ▸ h)
    cases ht with
    | unchanged | hinit | hbyte => exact hf
    | new n k hnone => simp [hf] at hnone
    | add x => simp [isAdd, hw] at hadd
    | free => exact absurd hw hfree

theorem perform_next_filter_of_free (hf : s.filter = some f) (hw : decode w = .ok .free)
    (h : perform w s = .next s') : s'.filter = none := by
  rw [perform_of_decode hw, exec_free_of_some hf] at h
  cases h
  rfl

/-- Without a `FREE` an instance stays, with the bits set that the word writes. -/
theorem perform_next_setAll (hf : s.filter = some f) (hfree : decode w ≠ .ok .free) (h : perform w s = .next s') :
    ∃ f', s'.filter = some f' ∧ f.setAll (f.written w) = some f' := by
  cases hadd : isAdd w with
  | false =>
    rw [Filter.written_of_not_add hadd]
    exact ⟨f, perform_next_filter_eq_of_not_add hf hadd hfree h, rfl⟩
  | true =>
    obtain ⟨x, hw⟩ := isAdd_eq_true_iff.mp hadd
    rw [perform_of_decode hw] at h
    obtain ⟨hnone, -⟩ | ⟨g, hg, hact⟩ := withInstance_eq_next.mp h
    · simp [hf] at hnone
    · obtain rfl : f = g := Option.some.inj (hf.symm.trans hg)
      rw [Filter.written_of_add hw]
      cases hset : f.setAll (f.addresses x) with
      | none => simp [hset] at hact
      | some f' =>
        simp only [hset] at hact
        cases hact
        exact ⟨f', rfl, rfl⟩

/-- Over a history without a `FREE` an instance stays, with the bits set that its words write. -/
theorem performAll_next_setAll (hf : s.filter = some f) (hfree : ∀ w ∈ ws, decode w ≠ .ok .free)
    (h : performAll ws s = .next s') :
    ∃ f', s'.filter = some f' ∧ f.setAll (ws.flatMap f.written) = some f' := by
  induction ws generalizing s f with
  | nil =>
    cases h
    exact ⟨f, hf, rfl⟩
  | cons w ws ih =>
    obtain ⟨hw, hws⟩ := List.forall_mem_cons.mp hfree
    obtain ⟨t, hperform, hall⟩ := performAll_cons_eq_next.mp h
    obtain ⟨g, hg, hset⟩ := perform_next_setAll hf hw hperform
    obtain ⟨f', hf', hset'⟩ := ih hg hws hall
    rw [Filter.written_of_setAll hset] at hset'
    exact ⟨f', hf', by rw [List.flatMap_cons, Filter.setAll_append_of_some hset, hset']⟩

/-- A hash added by one of the words is present after them (43_properties R120). -/
theorem exec_present_of_added {x : Word} (hs : s.BlockWf) (hf : s.filter = some f)
    (hfree : ∀ w ∈ ws, decode w ≠ .ok .free) (hadd : ∃ w ∈ ws, decode w = .ok (.add x))
    (h : performAll ws s = .next s') : exec (.present x) s' = respond 1#64 s' := by
  obtain ⟨w, hmem, hw⟩ := hadd
  obtain ⟨-, hfilter⟩ := hs
  obtain ⟨-, -, ⟨hm, -⟩, -⟩ := hfilter f hf
  obtain ⟨f', hf', hset⟩ := performAll_next_setAll hf hfree h
  obtain ⟨-, -, hbits⟩ := Filter.of_setAll_eq_some hset
  have hall : (f'.addresses x).all (Memory.read f'.bits) = true := by
    rw [Filter.addresses_of_setAll hset, List.all_eq_true]
    refine fun j hj => decide_eq_true ((hbits j).mpr (.inl (List.mem_flatMap.mpr ⟨w, hmem, ?_⟩)))
    rwa [Filter.written_of_add hw]
  rw [exec_present_of_some hf' (hm.trans_eq (Filter.m_of_setAll hset).symm), hall]
  rfl

/-- The count after a history on an instance that starts with all bits 0: at most `K` for each `ADD`, and not 0 after
one (43_properties R123). -/
theorem Filter.popcount_of_history {c : Config} (hk : 1 ≤ f.k) (hzero : f.bits = []) (hwf' : f'.wf c)
    (hset : f.setAll (ws.flatMap f.written) = some f') :
    f'.popcount ≤ (ws.filter isAdd).length * f.k ∧ (1 ≤ (ws.filter isAdd).length → 1 ≤ f'.popcount) := by
  obtain ⟨-, -, hmem⟩ := Filter.of_setAll_eq_some hset
  have ⟨_, _, _, hcanon, _⟩ := hwf'
  rw [Filter.popcount_eq_length hwf', ← f.length_flatMap_written]
  constructor
  · refine ((Memory.wf.nodup hcanon).subperm fun j hj => ?_).length_le
    exact ((hmem j).mp hj).resolve_right (by simp [hzero])
  · intro ht
    obtain ⟨w, hw⟩ := List.exists_mem_of_length_pos ht
    obtain ⟨hw, hadd⟩ := List.mem_filter.mp hw
    obtain ⟨x, hd⟩ := isAdd_eq_true_iff.mp hadd
    refine List.length_pos_of_mem ((hmem (index x 0 f.m)).mpr (.inl (List.mem_flatMap.mpr ⟨w, hw, ?_⟩)))
    rw [Filter.written_of_add hd]
    exact (mem_indices x f.k f.m _).mpr ⟨0, hk, rfl⟩

end

/-! ### The states that `NEW` and `ADD` make -/

/-- The state after a `NEW` that makes an instance. -/
def State.created (s : State) (cap k : Nat) : State :=
  (s.setFilter (some { cap, k, bits := Memory.zeros })).reply { status := .ok, value := BitVec.ofInt 64 cap }

theorem perform_new_eq_created {s : State} {n k : Int} (hi : (Instr.new n k).WellFormed) (hn : 0 < n) (hk : 0 < k)
    (hnone : s.filter = none) (hroom : n.toNat ≤ s.config.bitsMax) :
    perform (encode (.new n k)) s = .next (s.created n.toNat k.toNat) := by
  rw [perform_encode hi, exec_new_of_fits hn hk hnone (by omega), State.created, Int.toNat_of_nonneg hn.le]
  rfl

/-- The state after an `ADD` that leaves the instance `f`. -/
def State.added (s : State) (f : Filter) : State := (s.setFilter (some f)).reply { status := .ok, value := 0#64 }

theorem exec_add_eq_added {s : State} {f f' : Filter} {h : Word} (hf : s.filter = some f)
    (hset : f.setAll (f.addresses h) = some f') : exec (.add h) s = .next (s.added f') :=
  exec_add_of_setAll hf hset

/-! ### The statements -/

/-- Settles O45: the `ADD` and the words after it are one history. -/
theorem noFalseNegatives : Obligations.NoFalseNegatives := by
  intro h ws s hs hsome hfree
  obtain ⟨f, hf⟩ := Option.ne_none_iff_exists'.mp hsome
  obtain ⟨s₁, hadd⟩ := exec_answers (.add h) hs
  obtain ⟨s₂, hall, -⟩ := historiesKeepTheBlockWellFormed ws s₁ (exec_next_blockWf rfl hs hadd)
  have hdecode : decode (encode (.add h)) = .ok (.add h) := decode_encode rfl
  have hhistory : performAll (encode (.add h) :: ws) s = .next s₂ :=
    (performAll_cons_of_next ((perform_of_decode hdecode s).trans hadd) ws).trans hall
  refine ⟨s₁, s₂, hadd, hall, exec_present_of_added hs hf ?_ ⟨_, List.mem_cons_self, hdecode⟩ hhistory⟩
  exact List.forall_mem_cons.mpr ⟨by simp [hdecode], hfree⟩

/-- Settles O44: the count of the bits that a history writes on a new instance. -/
theorem boundedCount : Obligations.BoundedCount := by
  intro ws s n k hs hnone hn hk hkmax hfits hfree
  have ⟨⟨_, hmax⟩, _⟩ := hs
  have hwellFormed : (Instr.new n k).WellFormed := by
    refine Bool.and_eq_true_iff.mpr ⟨(inSigned64_iff n).mpr ⟨?_, ?_⟩, (inSigned64_iff k).mpr ⟨?_, hkmax⟩⟩ <;> omega
  have hnew := exec_new_of_fits hn hk hnone hfits
  obtain ⟨s₂, hall, -, hfilter⟩ := historiesKeepTheBlockWellFormed ws _ (exec_next_blockWf hwellFormed hs hnew)
  obtain ⟨f, hf, hset⟩ := performAll_next_setAll rfl hfree hall
  have hwf := hfilter f hf
  have ⟨_, _, _, hcanon, _⟩ := hwf
  obtain ⟨hadds, hpos⟩ := Filter.popcount_of_history (by show 1 ≤ k.toNat; omega) rfl hwf hset
  have hle : f.popcount ≤ n.toNat := (Filter.popcount_le hcanon).trans_eq (Filter.m_of_setAll hset)
  exact ⟨_, s₂, f.popcount, hnew, hall, exec_count_of_some hf, le_min hle hadds, hpos⟩

/-- Settles O18: an accepted word writes bits or is a `FREE`, and of the host's actions only reset removes the
instance. -/
theorem instanceIsImmutableAndBitsMonotone : Obligations.InstanceIsImmutableAndBitsMonotone := by
  intro s s' f hf h
  obtain ⟨-, -, -, rfl⟩ | ⟨w, -, -, hcmd, hperform⟩ | rfl := step_next_cases h
  · exact .inl ⟨f, hf, rfl, rfl, rfl, fun _ => id⟩
  · by_cases hfree : decode w = .ok .free
    · exact .inr (.inl ⟨perform_next_filter_of_free (s := s.acceptCommand) hf hfree hperform, w, hcmd, hfree⟩)
    · obtain ⟨f', hf', hset⟩ := perform_next_setAll (s := s.acceptCommand) hf hfree hperform
      obtain ⟨hcap, hk, hmem⟩ := Filter.of_setAll_eq_some hset
      refine .inl ⟨f', hf', hcap, hk, Filter.m_of_setAll hset, fun j hj => ?_⟩
      exact decide_eq_true ((hmem j).mpr (.inr (of_decide_eq_true hj)))
  · obtain hsame | ⟨hnone, hrst⟩ := hostTurn_filter s
    · exact .inl ⟨f, hsame.trans hf, rfl, rfl, rfl, fun _ => id⟩
    · exact .inr (.inr ⟨hnone, hrst⟩)

/-- Settles O42: two `ADD`s write the addresses of both, and only which addresses are written matters. -/
theorem addIdempotentAndCommutative : Obligations.AddIdempotentAndCommutative := by
  intro h h' s hs hsome
  obtain ⟨f, hf⟩ := Option.ne_none_iff_exists'.mp hsome
  obtain ⟨-, hfilter⟩ := hs
  have hwf := hfilter f hf
  have ⟨_, _, ⟨hm, _⟩, hcanon, _⟩ := hwf
  obtain ⟨f₁, hset₁⟩ := Filter.exists_setAll_addresses hm h
  obtain ⟨f₂, hset₂⟩ := Filter.exists_setAll_addresses hm h'
  obtain ⟨g, hg₁, hg₂⟩ := Filter.setAll_addresses_comm hcanon hm hset₁ hset₂
  obtain ⟨-, -, hmem₁⟩ := Filter.of_setAll_eq_some hset₁
  obtain ⟨-, -, hmem₂⟩ := Filter.of_setAll_eq_some hset₂
  obtain ⟨-, -, hmem⟩ := Filter.of_setAll_eq_some hg₁
  rw [Filter.addresses_of_setAll hset₁] at hmem
  refine ⟨s.added f₁, s.added f₂, s.added g, exec_add_eq_added hf hset₁, ?_, exec_add_eq_added hf hset₂,
    exec_add_eq_added (s := s.added f₁) rfl hg₁, exec_add_eq_added (s := s.added f₂) rfl hg₂, ?_⟩
  · refine exec_add_of_all_set rfl (Filter.wf_of_setAll hwf hset₁) fun j hj => (hmem₁ j).mpr (.inl ?_)
    rwa [Filter.addresses_of_setAll hset₁] at hj
  · intro f' f₁' f₂' g' hf' hf₁ hf₂ hg j
    obtain rfl : f = f' := Option.some.inj (hf.symm.trans hf')
    cases hf₁
    cases hf₂
    cases hg
    rw [Bool.eq_iff_iff, Bool.or_eq_true]
    simp only [Memory.read, decide_eq_true_iff, hmem, hmem₁, hmem₂, Filter.addresses]
    tauto

/-- Settles O43: the count is the length of the list of addresses, to which `ADD` adds the new ones. -/
theorem countIncrease : Obligations.CountIncrease := by
  constructor
  · intro h s f hf hwf
    have ⟨_, _, ⟨hm, _⟩, _⟩ := hwf
    obtain ⟨f', hset⟩ := Filter.exists_setAll_addresses hm h
    have hcount := Filter.popcount_of_setAll hwf hset
    refine ⟨_, f', exec_add_of_setAll hf hset, rfl, hcount, by omega, ?_, fun hall => ?_⟩
    · have hnew := List.length_filter_le (fun j => !Memory.read f.bits j) (indices h f.k f.m).dedup
      have hrounds := length_dedup_indices_le_rounds h f.k f.m
      have hlength := length_dedup_indices_le_length h f.k hm
      omega
    · rw [hcount, List.filter_eq_nil_iff.mpr, List.length_nil, Nat.add_zero]
      intro j hj
      obtain ⟨i, hi, rfl⟩ := (mem_indices h f.k f.m j).mp (List.mem_dedup.mp hj)
      simp [hall i hi]
  · intro w s s' f f' hf hf' hadd h
    have hfree : decode w ≠ .ok .free := fun hw => by simp [perform_next_filter_of_free hf hw h] at hf'
    rw [Option.some.inj (hf'.symm.trans (perform_next_filter_eq_of_not_add hf hadd hfree h))]

/-- Settles O47: the witness by running it on the new instance, the converse from R120. -/
theorem falsePositivesAreLegal : Obligations.FalsePositivesAreLegal := by
  constructor
  · intro s hnone hroom
    have hnew : perform (encode (.new 8 3)) s = .next (s.created 8 3) :=
      perform_new_eq_created (by decide) (by decide) (by decide) hnone hroom
    have hadd₁ : perform (encode (.add 0x0000000200000001#64)) (s.created 8 3) =
        .next ((s.created 8 3).added { cap := 8, k := 3, bits := [1, 3, 5] }) :=
      (perform_encode rfl _).trans (exec_add_eq_added rfl (by decide))
    have hadd₂ (t : State) (ht : t.filter = some { cap := 8, k := 3, bits := [1, 3, 5] }) :
        perform (encode (.add 0x0000000000000007#64)) t =
          .next (t.added { cap := 8, k := 3, bits := [1, 3, 5, 7] }) :=
      (perform_encode rfl _).trans (exec_add_eq_added ht (by decide))
    have hall := (performAll_cons_of_next hnew _).trans
      ((performAll_cons_of_next hadd₁ _).trans (performAll_cons_of_next (hadd₂ _ rfl) []))
    refine ⟨_, hall, ?_⟩
    rw [exec_present_eq_ite rfl (by decide), if_pos (by decide)]
    rfl
  · intro ws h s s' hs hsome hfree hall hpresent w hw hd
    obtain ⟨f, hf⟩ := Option.ne_none_iff_exists'.mp hsome
    have hone := exec_present_of_added hs hf hfree ⟨w, hw, hd⟩ hall
    cases hone.symm.trans hpresent

end Sys2Proof.Machine

/-! PROOFS. What the responses depend on: those of the hash commands on the bytes, those of the filter commands on the
instance; and the pinned numbers (43_properties R121, R129, R132, R133). -/

namespace Sys2Proof.Machine

/-! ### What filter commands depend on -/

/-- The state `s` after a filter command, seen from `t`, which has its own `ACC`, parameter, ports and host. -/
def State.filterSeenAt (t s : State) : State := { t with filter := s.filter, rspPort := s.rspPort }

section
variable {s t : State} {w : CommandWord}

/-- Filter commands can tell `t` from `s` only by the parameter, and not even by that while there is an instance. -/
def State.LooksLike (t s : State) : Prop := s.filter = t.filter ∧ (s.config = t.config ∨ s.filter ≠ none)

theorem newStatus_congr (n k : Int) (h : t.LooksLike s) : newStatus n k t = newStatus n k s := by
  obtain ⟨hf, hconfig | hsome⟩ := h
  · rw [newStatus, newStatus, State.valid, State.valid, hf, hconfig]
  · have hvalid : s.valid = true := Option.isSome_iff_ne_none.mpr hsome
    have hvalid' : t.valid = true := by rwa [State.valid, ← hf]
    simp only [newStatus, hvalid, hvalid', if_true]

theorem withInstance_filterSeenAt {act act' : Filter → Host.Outcome State Fault Refusal} (hf : s.filter = t.filter)
    (h : ∀ f, s.filter = some f → act' f = mapNext t.filterSeenAt (act f)) :
    withInstance t act' = mapNext t.filterSeenAt (withInstance s act) := by
  unfold withInstance
  rw [← hf]
  cases hs : s.filter with
  | none => simp [raise, mapNext, State.filterSeenAt, State.reply, hs, ← hf]
  | some f => exact h f hs

theorem State.filterSeenAt_reply (hf : s.filter = t.filter) (r : Response) :
    t.filterSeenAt (s.reply r) = t.reply r := by
  simp only [State.filterSeenAt, State.reply, hf]

/-- A filter command does to `t` and answers it what it does to and answers a state that looks like it. -/
theorem exec_filterSeenAt {i : Instr} (h : t.LooksLike s) (hi : i.opcode ∉ [Opcode.hinit, Opcode.hbyte, Opcode.hget]) :
    exec i t = mapNext t.filterSeenAt (exec i s) := by
  have ⟨hf, _⟩ := h
  have hrespond (v : Word) : respond v t = mapNext t.filterSeenAt (respond v s) :=
    congrArg Host.Outcome.next (State.filterSeenAt_reply hf _).symm
  have hraise (st : Status) : raise st t = mapNext t.filterSeenAt (raise st s) :=
    congrArg Host.Outcome.next (State.filterSeenAt_reply hf _).symm
  cases i with
  | hinit | hbyte | hget => simp [Instr.opcode] at hi
  | new n k =>
    have hst := newStatus_congr n k h
    by_cases hok : newStatus n k s = .ok
    · rw [exec_new_of_ok hok, exec_new_of_ok (hst.trans hok)]
      rfl
    · rw [exec_new_of_ne_ok hok, exec_new_of_ne_ok (hst ▸ hok), hst, hraise]
  | add x =>
    refine withInstance_filterSeenAt hf fun f _ => ?_
    cases f.setAll (f.addresses x) <;> rfl
  | present x =>
    refine withInstance_filterSeenAt hf fun f _ => ?_
    cases f.testAll true (f.addresses x) with
    | none => rfl
    | some r => exact hrespond _
  | count => exact withInstance_filterSeenAt hf fun f _ => hrespond _
  | free => exact withInstance_filterSeenAt hf fun f _ => rfl

theorem perform_filterSeenAt (h : t.LooksLike s) (hw : notHashCommand w = true) :
    perform w t = mapNext t.filterSeenAt (perform w s) := by
  cases hd : decode w with
  | ok i =>
    rw [perform_of_decode hd, perform_of_decode hd, exec_filterSeenAt h ((notHashCommand_of_decode hd).mp hw)]
  | error e =>
    obtain ⟨hf, -⟩ := h
    rw [perform_of_error hd, perform_of_error hd, mapNext, State.filterSeenAt_reply hf]

end

/-! ### The statements -/

/-- Settles O46, by induction on the words: the two states look alike to each word, whose `FREE` is excluded where
their parameters differ. -/
theorem equalInstancesAnswerAlike : Obligations.EqualInstancesAnswerAlike := by
  intro ws
  induction ws with
  | nil =>
    intro s t hf _ _
    refine ⟨rfl, fun s' t' hs ht => ?_⟩
    cases hs
    cases ht
    exact hf
  | cons w ws ih =>
    intro s t hf hhash hconfig
    obtain ⟨hw, hws⟩ := List.forall_mem_cons.mp hhash
    have hlike : t.LooksLike s := ⟨hf, hconfig.imp_right And.left⟩
    have hperform := perform_filterSeenAt hlike hw
    cases hs : perform w s with
    | fault r | refused r =>
      rw [hs] at hperform
      simp [responses, performAll, hs, hperform, mapNext]
    | next s₁ =>
      rw [hs] at hperform
      have hconfig' : s₁.config = t.config ∨ (s₁.filter ≠ none ∧ ∀ w ∈ ws, decode w ≠ .ok .free) := by
        refine hconfig.imp (perform_next_config_eq hs).trans fun ⟨hsome, hfree⟩ => ?_
        obtain ⟨hw, hws⟩ := List.forall_mem_cons.mp hfree
        obtain ⟨f, hf⟩ := Option.ne_none_iff_exists'.mp hsome
        obtain ⟨f', hf', -⟩ := perform_next_setAll hf hw hs
        exact ⟨by simp [hf'], hws⟩
      obtain ⟨hresponses, hfilters⟩ := ih s₁ (t.filterSeenAt s₁) rfl hws hconfig'
      rw [responses_cons_of_next hs, responses_cons_of_next hperform, performAll_cons_of_next hs,
        performAll_cons_of_next hperform, hresponses]
      exact ⟨rfl, hfilters⟩

/-- Settles O27: both end with `fnv1` of the bytes. -/
theorem hashIsAFunctionOfTheBytes : Obligations.HashIsAFunctionOfTheBytes := by
  intro u v us vs s t hs ht hu hv hus hvs hbytes
  obtain ⟨s', hs', -, hgets, -⟩ := streamLaw u us s hs hu hus
  obtain ⟨t', ht', -, hgett, -⟩ := streamLaw v vs t ht hv hvs
  exact ⟨s', t', _, hs', ht', hgets, hbytes ▸ hgett⟩

/-- Settles O24, by evaluation. -/
theorem fnvKnownVectors : Obligations.FnvKnownVectors := by
  unfold Obligations.FnvKnownVectors
  decide

/-- The words of the scenario after its `NEW` (43_properties R133). -/
def scenarioWords : List CommandWord :=
  [encode (.add 0x7B495389BDBDD4C7#64), encode (.add 0x08326007B4EB2B9C#64), encode (.add 0x1A6225B391C2AC91#64),
    encode (.present 0x7B495389BDBDD4C7#64), encode (.present 0x08326007B4EB2B9C#64),
    encode (.present 0x1A6225B391C2AC91#64), encode (.present 0x8C06877B6C117D99#64), encode .count]

theorem scenarioWords_are_filter_commands :
    ∀ w ∈ scenarioWords, notHashCommand w = true ∧ decode w ≠ .ok .free := by
  have h : scenarioWords.all (fun w => decide (notHashCommand w = true ∧ decode w ≠ .ok .free)) = true := by
    decide +kernel
  exact fun w hw => of_decide_eq_true (List.all_eq_true.mp h w hw)

theorem responses_scenarioWords_of_reset :
    (responses scenarioWords (State.reset.created 10000 10)).map (fun r => (r.status, r.value.toNat)) =
      [(.ok, 0), (.ok, 0), (.ok, 0), (.ok, 1), (.ok, 1), (.ok, 1), (.ok, 0), (.ok, 30)] := by
  decide +kernel

/-- Settles O48: `NEW` makes the same instance on every block with room for it, so the other words are answered as on
the block after reset, where they are evaluated. -/
theorem endToEndScenario : Obligations.EndToEndScenario := by
  refine ⟨by decide, by decide, by decide, by decide, by decide +kernel, fun s hnone hroom => ?_⟩
  have hnew : perform (encode (.new 10000 10)) s = .next (s.created 10000 10) :=
    perform_new_eq_created (by decide) (by decide) (by decide) hnone hroom
  obtain ⟨hsame, -⟩ := equalInstancesAnswerAlike scenarioWords (s.created 10000 10) (State.reset.created 10000 10) rfl
    (fun w hw => (scenarioWords_are_filter_commands w hw).1)
    (.inr ⟨nofun, fun w hw => (scenarioWords_are_filter_commands w hw).2⟩)
  show (responses (encode (.new 10000 10) :: scenarioWords) s).map (fun r => (r.status, r.value.toNat)) = _
  rw [responses_cons_of_next hnew, hsame, List.map_append, responses_scenarioWords_of_reset]
  rfl

end Sys2Proof.Machine

/-! PROOFS. The status of every answer: which one it is, the conditions it comes from, and that an error is precise and
not sticky (60_exceptions R140 to R151; 43_properties R128, R130). -/

namespace Sys2Proof.Machine

/-! ### The status of `NEW` -/

section
variable {n k : Int} {s : State}

/-- The checks of `NEW` with the capacity compared as the signed operand it is (60_exceptions R147). -/
theorem newStatus_eq_ite (n k : Int) (s : State) :
    newStatus n k s =
      if n ≤ 0 ∨ k ≤ 0 then .invalidArgument
      else if s.filter.isSome then .alreadyConstructed
      else if (s.config.bitsMax : Int) < n then .capacityExceeded
      else .ok := by
  simp only [newStatus, State.valid, bitsLength, Int.lt_toNat]

theorem newStatus_eq_invalidArgument_iff : newStatus n k s = .invalidArgument ↔ n ≤ 0 ∨ k ≤ 0 := by
  refine ⟨fun h => ?_, fun h => if_pos h⟩
  by_contra hpos
  rw [newStatus, if_neg hpos] at h
  split_ifs at h

theorem newStatus_eq_ok_iff :
    newStatus n k s = .ok ↔ 1 ≤ n ∧ 1 ≤ k ∧ s.valid = false ∧ n ≤ s.config.bitsMax := by
  rw [newStatus_eq_ite, State.valid, ← Bool.not_eq_true]
  constructor
  · intro h
    split_ifs at h with hbad hsome hbig
    exact ⟨by omega, by omega, hsome, by omega⟩
  · rintro ⟨hn, hk, hnone, hfits⟩
    rw [if_neg (by omega), if_neg hnone, if_neg (by omega)]

end

/-- A signed operand is not positive exactly when it is 0 or has its sign bit set (60_exceptions R141). -/
theorem sint64_nonpos_iff (v : Word) : sint64 v ≤ 0 ↔ v = 0#64 ∨ v.getLsbD 63 = true := by
  have hsign : v.getLsbD 63 = true ↔ 2 ^ 63 ≤ v.toNat := by
    rw [← BitVec.msb_eq_getLsbD_last v, BitVec.msb_eq_decide, decide_eq_true_iff]
  have hzero : v = 0#64 ↔ v.toNat = 0 := BitVec.toNat_inj.symm
  have := v.isLt
  rw [hsign, hzero, sint64]
  split <;> omega

/-! ### The status of an answer -/

/-- The status an instruction is answered with (60_exceptions R147); `exec_next_status` ties it to `exec`. -/
def execStatus : Instr → State → Status
  | .hinit, _ | .hbyte _, _ | .hget, _ => .ok
  | .new n k, s => newStatus n k s
  | .add _, s | .present _, s | .count, s | .free, s => if s.valid then .ok else .notConstructed

/-- The status a word is answered with (60_exceptions R143, R147); `perform_next_status` ties it to `perform`. -/
def performStatus (w : CommandWord) (s : State) : Status :=
  match decode w with
  | .ok i => execStatus i s
  | .error _ => .illegalCommand

section
variable {w : CommandWord} {i : Instr} {s s' : State} {r : Response}

theorem execStatus_of_hash (hi : i.opcode ∈ [Opcode.hinit, Opcode.hbyte, Opcode.hget]) : execStatus i s = .ok := by
  cases i with
  | hinit | hbyte | hget => rfl
  | new | add | present | count | free => simp [Instr.opcode] at hi

theorem execStatus_of_needs_instance (hi : i.opcode ∈ [Opcode.add, Opcode.present, Opcode.count, Opcode.free]) :
    execStatus i s = if s.valid then .ok else .notConstructed := by
  cases i with
  | hinit | hbyte | hget | new => simp [Instr.opcode] at hi
  | add | present | count | free => rfl

theorem performStatus_of_decode (h : decode w = .ok i) : performStatus w s = execStatus i s := by
  simp only [performStatus, h]

theorem performStatus_of_error {e : DecodeError} (h : decode w = .error e) : performStatus w s = .illegalCommand := by
  simp only [performStatus, h]

/-- Every status with the word and the state it comes from (60_exceptions R140). -/
theorem performStatus_cases (w : CommandWord) (s : State) :
    ((∃ i, decode w = .ok i) ∧ performStatus w s = .ok) ∨
    ((∃ n k, decode w = .ok (.new n k) ∧ (n ≤ 0 ∨ k ≤ 0)) ∧ performStatus w s = .invalidArgument) ∨
    ((s.filter = none ∧ ∃ i, decode w = .ok i ∧
        i.opcode ∈ [Opcode.add, Opcode.present, Opcode.count, Opcode.free]) ∧ performStatus w s = .notConstructed) ∨
    ((∃ e, decode w = .error e) ∧ performStatus w s = .illegalCommand) ∨
    ((∃ n k, decode w = .ok (.new n k) ∧ (s.config.bitsMax : Int) < n) ∧ performStatus w s = .capacityExceeded) ∨
    ((s.filter.isSome ∧ ∃ n k, decode w = .ok (.new n k)) ∧ performStatus w s = .alreadyConstructed) := by
  cases hd : decode w with
  | error e => exact .inr (.inr (.inr (.inl ⟨⟨e, rfl⟩, performStatus_of_error hd⟩)))
  | ok i =>
    rw [performStatus_of_decode hd]
    by_cases hi : i.opcode ∈ [Opcode.add, Opcode.present, Opcode.count, Opcode.free]
    · rw [execStatus_of_needs_instance hi, State.valid]
      cases hf : s.filter with
      | some f => exact .inl ⟨⟨i, rfl⟩, rfl⟩
      | none => exact .inr (.inr (.inl ⟨⟨rfl, i, rfl, hi⟩, rfl⟩))
    · cases i with
      | add | present | count | free => simp [Instr.opcode] at hi
      | hinit | hbyte | hget => exact .inl ⟨⟨_, rfl⟩, rfl⟩
      | new n k =>
        obtain ⟨hbad, hst⟩ | ⟨-, -, hsome, hst⟩ | ⟨-, -, -, hbig, hst⟩ | ⟨-, -, -, -, hst⟩ := newStatus_cases n k s
        · exact .inr (.inl ⟨⟨n, k, rfl, hbad⟩, hst⟩)
        · exact .inr (.inr (.inr (.inr (.inr ⟨⟨hsome, n, k, rfl⟩, hst⟩))))
        · exact .inr (.inr (.inr (.inr (.inl ⟨⟨n, k, rfl, Int.lt_toNat.mp hbig⟩, hst⟩))))
        · exact .inl ⟨⟨_, rfl⟩, hst⟩

theorem status_of_respond {v : Word} {t : State} (h : respond v t = .next s') :
    s'.rspPort.map Response.status = some .ok := by
  rw [respond_eq_next.mp h]
  rfl

theorem status_of_withInstance {act : Filter → Host.Outcome State Fault Refusal} (h : withInstance s act = .next s')
    (hact : ∀ f, act f = .next s' → s'.rspPort.map Response.status = some .ok) :
    s'.rspPort.map Response.status = some (if s.valid then .ok else .notConstructed) := by
  obtain ⟨hnone, rfl⟩ | ⟨f, hf, h⟩ := withInstance_eq_next.mp h
  · rw [State.valid, hnone]
    rfl
  · rw [State.valid, hf]
    exact hact f h

/-- Every answer of an instruction has the status of `execStatus`. -/
theorem exec_next_status (h : exec i s = .next s') : s'.rspPort.map Response.status = some (execStatus i s) := by
  cases i with
  | hinit | hbyte | hget => exact status_of_respond h
  | new n k =>
    by_cases hok : newStatus n k s = .ok
    · rw [execStatus, hok]
      exact status_of_respond (exec_new_of_ok hok ▸ h)
    · rw [exec_new_of_ne_ok hok, raise_eq_next] at h
      rw [h]
      rfl
  | add x | present x =>
    refine status_of_withInstance h fun f hf => ?_
    split at hf
    · cases hf
    · exact status_of_respond hf
  | count | free => exact status_of_withInstance h fun f hf => status_of_respond hf

/-- Every answer of a word has the status of `performStatus`. -/
theorem perform_next_status (h : perform w s = .next s') :
    s'.rspPort.map Response.status = some (performStatus w s) := by
  cases hd : decode w with
  | ok i => rw [performStatus_of_decode hd, exec_next_status (perform_of_decode hd s ▸ h)]
  | error e =>
    cases (perform_of_error hd s).symm.trans h
    rw [performStatus_of_error hd]
    rfl

/-- An instruction whose status is `OK` presents a response with that status. -/
theorem rspPort_of_execStatus_ok (h : exec i s = .next s') (hok : execStatus i s = .ok) :
    ∃ v, s'.rspPort = some { status := .ok, value := v } := by
  obtain ⟨⟨st, v⟩, hr, hst⟩ := Option.map_eq_some_iff.mp (exec_next_status h)
  obtain rfl : st = .ok := hst.trans hok
  exact ⟨v, hr⟩

/-- A command that needs no instance answers in every state (60_exceptions R151). -/
theorem exec_answers_of_needs_no_instance
    (hi : i.opcode ∉ [Opcode.add, Opcode.present, Opcode.count, Opcode.free]) (s : State) :
    ∃ s', exec i s = .next s' := by
  cases i with
  | hinit | hbyte | hget => exact ⟨_, rfl⟩
  | new n k =>
    by_cases hok : newStatus n k s = .ok
    · exact ⟨_, exec_new_of_ok hok⟩
    · exact ⟨_, exec_new_of_ne_ok hok⟩
  | add | present | count | free => simp [Instr.opcode] at hi

/-- `NEW` is answered `InvalidArgument` exactly when an operand is not positive (60_exceptions R141). -/
theorem exec_new_eq_invalidArgument_iff {n k : Int} :
    exec (.new n k) s = .next { s with rspPort := some { status := .invalidArgument, value := 0#64 } } ↔
      n ≤ 0 ∨ k ≤ 0 := by
  rw [← newStatus_eq_invalidArgument_iff (s := s)]
  exact ⟨fun h => (Option.some.inj (exec_next_status h)).symm, fun h => exec_new_of_status h (by decide)⟩

/-- An answer other than `OK` is the state before with that status and value 0 presented (60_exceptions R146). -/
theorem perform_next_of_status_ne_ok (h : perform w s = .next s') (hr : s'.rspPort = some r) (hst : r.status ≠ .ok) :
    s' = s.reply { status := r.status, value := 0#64 } := by
  obtain ⟨t, v, rfl⟩ | ⟨st, -, rfl⟩ := perform_next_ok_or_error h
  · cases hr
    exact absurd rfl hst
  · cases hr
    rfl

end

/-! ### The opcodes and the codes -/

/-- A word the decoder rejects has none of the eight opcodes (30_encoding R62, R65). -/
theorem opField_ne_code_of_error {w : CommandWord} {e : DecodeError} (h : decode w = .error e) (o : Opcode) :
    opField w ≠ o.code := by
  intro ho
  cases h.symm.trans (decode_of_code ho)

theorem opField_not_mem_of_error {w : CommandWord} {e : DecodeError} (h : decode w = .error e) :
    opField w ∉ [0x01#8, 0x02#8, 0x03#8, 0x10#8, 0x11#8, 0x12#8, 0x13#8, 0x14#8] := by
  have hcodes : [0x01#8, 0x02#8, 0x03#8, 0x10#8, 0x11#8, 0x12#8, 0x13#8, 0x14#8] =
      [Opcode.hinit, .hbyte, .hget, .new, .add, .present, .count, .free].map Opcode.code := rfl
  rw [hcodes, List.mem_map]
  rintro ⟨o, -, ho⟩
  exact opField_ne_code_of_error h o ho.symm

theorem Status.toNat_code_le (st : Status) : st.code.toNat ≤ 0x05 := by
  cases st <;> decide

/-! ### The statements -/

/-- Settles O49: every word is answered, and `performStatus` is the chain of R147. -/
theorem statusPriority : Obligations.StatusPriority := by
  intro w s hs
  obtain ⟨s', h, -⟩ := perform_answers w hs
  obtain ⟨r, hr, hst⟩ := Option.map_eq_some_iff.mp (perform_next_status h)
  refine ⟨s', r, h, hr, hst.trans ?_⟩
  unfold performStatus
  cases decode w with
  | error e => rfl
  | ok i =>
    cases i with
    | new n k => exact newStatus_eq_ite n k s
    | hinit | hbyte | hget | add | present | count | free => rfl

/-- Settles O50: an error only presents its response, and a response that waits does not matter to the next word. -/
theorem errorsArePreciseAndNotSticky : Obligations.ErrorsArePreciseAndNotSticky := by
  intro w s s' r h hr hst
  obtain rfl := perform_next_of_status_ne_ok h hr hst
  exact ⟨rfl, fun w' => perform_reply w' s _⟩

/-- Settles O51: the word is the `NEW` of the two signed operands, and each is not positive by its bits. -/
theorem invalidArgumentExactly : Obligations.InvalidArgumentExactly := by
  intro a b s
  have hword : perform (0x10#8 ++ a ++ b) s = exec (.new (sint64 a) (sint64 b)) s := perform_packCommand .new a b s
  have hbits : (a = 0#64 ∨ a.getLsbD 63 = true ∨ b = 0#64 ∨ b.getLsbD 63 = true) ↔
      (sint64 a ≤ 0 ∨ sint64 b ≤ 0) := by
    rw [sint64_nonpos_iff, sint64_nonpos_iff, or_assoc]
  exact ⟨by rw [hword, hbits, exec_new_eq_invalidArgument_iff], hbits⟩

/-- Settles O52: without an instance `withInstance` raises the status. -/
theorem notConstructed : Obligations.NotConstructed :=
  fun _ _ hnone hi => exec_of_none hnone hi

/-- Settles O53: each command answers, with the status `execStatus` gives it. -/
theorem commandsThatCannotFail : Obligations.CommandsThatCannotFail := by
  refine ⟨fun i s hi => ?_, fun i s hs hvalid hi => ?_, fun n k s => ?_⟩
  · have hno : i.opcode ∉ [Opcode.add, Opcode.present, Opcode.count, Opcode.free] := by
      generalize i.opcode = o at hi
      revert o
      decide
    obtain ⟨s', h⟩ := exec_answers_of_needs_no_instance hno s
    obtain ⟨v, hr⟩ := rspPort_of_execStatus_ok h (execStatus_of_hash hi)
    exact ⟨s', v, h, hr⟩
  · obtain ⟨s', h⟩ := exec_answers i hs
    obtain ⟨v, hr⟩ := rspPort_of_execStatus_ok h ((execStatus_of_needs_instance hi).trans (if_pos hvalid))
    exact ⟨s', v, h, hr⟩
  · obtain ⟨s', h⟩ := exec_answers_of_needs_no_instance (i := .new n k) (by simp [Instr.opcode]) s
    obtain ⟨r, hr, hst⟩ := Option.map_eq_some_iff.mp (exec_next_status h)
    exact ⟨s', r, h, hr, by rw [hst, execStatus, newStatus_eq_ok_iff]⟩

/-- Settles O54: the codes by cases, the cause of each status by `performStatus_cases`, the value of an error from
O5. -/
theorem statusTable : Obligations.StatusTable := by
  refine ⟨⟨rfl, rfl, rfl, rfl, rfl, rfl⟩, fun r => ?_, fun w s s' r h hr => ?_⟩
  · have := r.status.toNat_code_le
    have := r.value.isLt
    rw [r.toNat_word]
    omega
  · have hvalue : r.status ≠ .ok → r.value = 0#64 := perform_next_response_wf h r hr
    have hstatus : r.status = performStatus w s := by
      have := perform_next_status h
      rwa [hr, Option.map_some, Option.some_inj] at this
    rw [hstatus] at hvalue ⊢
    obtain ⟨hok, hst⟩ | ⟨hnew, hst⟩ | ⟨hneeds, hst⟩ | ⟨⟨e, he⟩, hst⟩ | ⟨hnew, hst⟩ | ⟨hnew, hst⟩ :=
      performStatus_cases w s <;> rw [hst] at hvalue ⊢
    · exact hok
    · exact ⟨hvalue (by decide), hnew⟩
    · exact ⟨hvalue (by decide), hneeds⟩
    · exact ⟨hvalue (by decide), opField_not_mem_of_error he⟩
    · exact ⟨hvalue (by decide), hnew⟩
    · exact ⟨hvalue (by decide), hnew⟩

end Sys2Proof.Machine

/-! PROOFS. The reset input, what reset does to a waiting response, and idle steps (70_reset R160, R162, R165). -/

namespace Sys2Proof.Machine

/-! ### The pins -/

section
variable {s : State} {level : Bool} {rest : List HostAction}

theorem hostTurn_of_nil (h : s.host = []) : s.hostTurn = s := by
  rw [State.hostTurn, h]

/-- While `rst = 1` the block is not ready for a word (70_reset R160). -/
theorem State.cmdReady_of_rst (h : s.rst = true) : s.cmdReady = false := by
  simp [State.cmdReady, h]

/-- While `rst = 1` no response is presented (70_reset R160). -/
theorem State.rspValid_of_rst (h : s.rst = true) : s.rspValid = false := by
  simp [State.rspValid, h]

theorem State.accepted_of_not_cmdReady (h : s.cmdReady = false) : s.accepted = none := by
  simp [State.accepted, h]

theorem State.rspData_of_not_rspValid (h : s.rspValid = false) : s.rspData = none := by
  simp [State.rspData, h]

/-- With `rst = 0` and no response waiting, the word presented is the word accepted (30_encoding R71). -/
theorem State.accepted_eq_cmdPort (hrst : s.rst = false) (hrsp : s.rspPort = none) : s.accepted = s.cmdPort := by
  simp [State.accepted, State.cmdReady, hrst, hrsp]

/-! ### The reset input -/

/-- The level 1, and the return from the level 1, reset the block (70_reset R160; log entry 17). -/
theorem State.driveRst_of_reset (h : level = true ∨ s.rst = true) :
    s.driveRst level = { s.resetBlock with rst := level } :=
  if_pos (Bool.or_eq_true_iff.mpr h)

/-- When no handshake is possible and reset is the host's next action, the step is the reset of the block. -/
theorem step_of_driveRst (hhost : s.host = .driveRst level :: rest) (hreset : level = true ∨ s.rst = true)
    (hno : s.rst = true ∨ (s.rspPort.isSome ∧ s.rspReady = false) ∨ (s.rspPort = none ∧ s.cmdPort = none)) :
    step s = .next { s.resetBlock with host := rest, rst := level } := by
  have hdrive : { s with host := rest }.driveRst level = { s.resetBlock with host := rest, rst := level } :=
    State.driveRst_of_reset (s := { s with host := rest }) hreset
  rw [step_of_no_handshake hno, hostTurn_of_cons hhost, State.applyAction, hdrive]

/-- Where nothing can be accepted and no response taken, no handshake is possible. -/
theorem no_handshake_of_accepted_eq_none (hacc : s.accepted = none)
    (htake : s.rspPort = none ∨ s.rspReady = false ∨ s.rst = true) :
    s.rst = true ∨ (s.rspPort.isSome ∧ s.rspReady = false) ∨ (s.rspPort = none ∧ s.cmdPort = none) := by
  cases hrst : s.rst with
  | true => exact .inl rfl
  | false =>
    cases hrsp : s.rspPort with
    | none => exact .inr (.inr ⟨rfl, State.accepted_eq_cmdPort hrst hrsp ▸ hacc⟩)
    | some r => exact .inr (.inl ⟨rfl, by simpa [hrst, hrsp] using htake⟩)

/-- On a well-formed block the step that accepts a word takes it off the port and leaves a response waiting; of the
rest of the state it writes at most `ACC` and the filter. -/
theorem step_of_accept_answers {w : CommandWord} (hs : s.BlockWf) (hrst : s.rst = false) (hrsp : s.rspPort = none)
    (hcmd : s.cmdPort = some w) :
    ∃ a f r, step s = .next { s with cmdPort := none, acc := a, filter := f, rspPort := some r } := by
  obtain ⟨s', hw, -⟩ := perform_answers w (s := s.acceptCommand) hs
  obtain ⟨a, f, r, rfl⟩ := perform_next_shape hw
  exact ⟨a, f, r, (step_of_accept hrst hrsp hcmd).trans hw⟩

end

/-! ### The statements -/

/-- Settles O13: the word leaves a response that waits untaken, so the second step is the reset of the block, which
forgets what the word did; without the word the reset comes first. -/
theorem resetCutsOffAResponse : Obligations.ResetCutsOffAResponse := by
  intro s w rest hs hrst hrsp hcmd hready hhost
  obtain ⟨a, f, r, haccept⟩ := step_of_accept_answers hs hrst hrsp hcmd
  have hreset := step_of_driveRst (s := { s with cmdPort := none, acc := a, filter := f, rspPort := some r })
    hhost (.inl rfl) (.inr (.inl ⟨rfl, hready⟩))
  have halone := step_of_driveRst (s := { s with cmdPort := none }) hhost (.inl rfl) (.inr (.inr ⟨hrsp, rfl⟩))
  have htwo : stepN 2 s = step { s with cmdPort := none } :=
    (stepN_succ_of_next haccept 1).trans ((stepN_succ_of_next hreset 0).trans halone.symm)
  exact ⟨htwo.trans (halone.trans (by rw [hrsp, State.resetBlock, fnvOffsetBasis])), htwo⟩

/-- Settles O10: no handshake is possible, and the host has no change to make. -/
theorem idleStepChangesNothing : Obligations.IdleStepChangesNothing := by
  intro s hhost hidle
  have hno := hidle.imp_right fun h => (h.imp_left And.symm).symm
  rw [step_of_no_handshake hno, hostTurn_of_nil hhost]

/-- Settles O12: the levels while `rst = 1`, the reset of the block, and the step that is this reset. -/
theorem resetInput : Obligations.ResetInput := by
  refine ⟨fun s hrst => ?_, fun s level hreset => ?_, fun s level rest hhost hreset hacc htake => ?_⟩
  · have hcmd := State.cmdReady_of_rst hrst
    have hrsp := State.rspValid_of_rst hrst
    exact ⟨hcmd, hrsp, State.accepted_of_not_cmdReady hcmd, State.rspData_of_not_rspValid hrsp⟩
  · exact State.driveRst_of_reset hreset
  · exact step_of_driveRst hhost hreset (no_handshake_of_accepted_eq_none hacc htake)

end Sys2Proof.Machine
